-- ==== Sys2Proof/Word.lean ====
section
/-! DEFINITION. Words.

Rule R11 of spec/00_scope.md: "Every value is an unsigned integer unless a rule says signed." The widths of the ADDER's
ports are `E + P` and `2 + 2 (E + P)`, functions of the instance's configuration, so a word is a natural number (bit 0
the least significant) and its width is a check, not a part of its type. -/

namespace Sys2Proof

/-- The word `v` needs no more than `n` bits. -/
abbrev Fits (v n : Nat) : Prop := v < 2 ^ n

end Sys2Proof
end

