-- ==== Sys2Proof/Config.lean ====
section
/-! DEFINITION. The configuration `CFG = (E, P, RM)` of an instance (rules R7, R9 of spec/00_scope.md, R23 to R25 of
spec/10_state.md) and the two parameters the spec leaves open. -/

namespace Sys2Proof

/-- The four rounding policies, "mutually exclusive" (R24; R73 of spec/30_encoding.md). There is no illegal value. -/
inductive RoundingPolicy where
  /-- round to nearest, ties to even (R172) -/
  | rne
  /-- round toward negative infinity (R173) -/
  | rdn
  /-- round toward positive infinity (R174) -/
  | rup
  /-- round toward zero (R175) -/
  | rtz
deriving DecidableEq, Repr, Inhabited

/-- A configuration. R213 of spec/60_exceptions.md: "A model makes CFG a type whose values are all well-formed, so no
operation has a precondition to check": the two bounds of R9 stand in the structure. -/
structure Cfg where
  /-- width of the exponent field (R7, R25) -/
  E : Nat
  /-- width of the significand, the implicit bit included (R7, R25) -/
  P : Nat
  /-- the rounding policy (R24) -/
  rm : RoundingPolicy
  /-- R9: with `E = 1` no normal value exists -/
  two_le_E : 2 ≤ E
  /-- R9: with `P = 1` the canonical NaN cannot be stored -/
  two_le_P : 2 ≤ P
deriving DecidableEq, Repr

/-- `W = E + P`, the width of a packed value (R8). -/
def Cfg.W (c : Cfg) : Nat := c.E + c.P

/-- The rounding policy of the instance that `State.reset` describes. OPEN in the spec (92_eei_decisions.md D2), so it
has no body: nothing can be proved of its value (log 2). -/
opaque Config.rm : RoundingPolicy

/-- `LATENCY` (R10, R236): the clock cycles between a request and its response. OPEN, and no rule depends on it; the
model is untimed and no definition reads it (log 14). -/
opaque Config.latency : Nat

/-- The reference configuration, `E = 8`, `P = 24` (R7), under a given policy. -/
def Cfg.reference (rm : RoundingPolicy) : Cfg where
  E := 8
  P := 24
  rm := rm
  two_le_E := by decide
  two_le_P := by decide

end Sys2Proof
end

