-- ==== Sys2Proof/Syntax.lean ====
section
/-! DEFINITION. The operations of the request port: one constructor per row of spec/opcode_table.json.

Rule R75 of spec/30_encoding.md: "A model should represent a request as an inductive type with four constructors
(`add x y`, `isNan x`, `isInf x`, `isSubnormal x`) and treat the word as transport." The `y` field of a unary request is
ignored (R77) and has no place here. -/

namespace Sys2Proof

/-- A request. Operands are whole packed values (R66: no immediates, no addressing modes). -/
inductive Instr where
  /-- ADD, op 0: the packed sum of `x` and `y` (R193) -/
  | add (x y : Nat)
  /-- IS_NAN, op 1 (R115) -/
  | isNan (x : Nat)
  /-- IS_INF, op 2 (R116) -/
  | isInf (x : Nat)
  /-- IS_SUBNORMAL, op 3 (R117) -/
  | isSubnormal (x : Nat)
deriving DecidableEq, Repr

end Sys2Proof
end

