-- ==== Sys2Proof/WellFormed.lean ====
section
/-! DEFINITION. Well-formed requests: every operand is a `W`-bit pattern (R13 of spec/00_scope.md, R79 of
spec/30_encoding.md: every `W`-bit pattern is legal, so the width is the only check). -/

namespace Sys2Proof

/-- The request's operands are `W` bits wide. -/
abbrev Instr.wf (W : Nat) : Instr → Bool
  | .add x y => decide (Fits x W) && decide (Fits y W)
  | .isNan x => decide (Fits x W)
  | .isInf x => decide (Fits x W)
  | .isSubnormal x => decide (Fits x W)

end Sys2Proof
end

