-- ==== Sys2Proof/Decode.lean ====
section
/-! DEFINITION. Bit fields, the codes of the rounding policies, the decoder of request words and the encoder.

Rules R73, R75, R77, R78 and R81 of spec/30_encoding.md: a request word has `2 + 2W` bits, `op = req[2W+1 : 2W]`,
`x = req[2W-1 : W]`, `y = req[W-1 : 0]`. -/

namespace Sys2Proof

/-- `v[i]` as a number (R11 of spec/00_scope.md). -/
def bit (v i : Nat) : Nat := (v >>> i) % 2

/-- `v[hi:lo]` (R11). -/
def bits (v hi lo : Nat) : Nat := (v >>> lo) % 2 ^ (hi + 1 - lo)

/-- The 2-bit code of a policy (R73). -/
def RoundingPolicy.code : RoundingPolicy → Nat
  | .rne => 0
  | .rdn => 1
  | .rup => 2
  | .rtz => 3

/-- The policy of a code; a number outside the four codes is no policy (R73, R213 of spec/60_exceptions.md). -/
def RoundingPolicy.ofCode? : Nat → Option RoundingPolicy
  | 0 => some .rne
  | 1 => some .rdn
  | 2 => some .rup
  | 3 => some .rtz
  | _ => none

/-- Making an instance's configuration from the numbers that describe it. A malformed one is refused: "no instance
exists" (R9 of spec/00_scope.md; 93_implementation_defined.md U1). -/
def Cfg.make (E P code : Nat) : Option Cfg :=
  if hE : 2 ≤ E then
    if hP : 2 ≤ P then
      (RoundingPolicy.ofCode? code).map fun rm => { E := E, P := P, rm := rm, two_le_E := hE, two_le_P := hP }
    else none
  else none

/-- Why a number is no request word. -/
inductive DecodeError where
  /-- it has a bit above bit `2W + 1`: "Every request has the same length, `2 + 2W` bits" (R81) -/
  | wrongWidth
deriving DecidableEq, Repr

/-- Reads a request word of an instance whose packed values have `W` bits. Every word of `2 + 2W` bits is a request
(R78: no code of `op` is reserved); the `y` field of a unary request is ignored (R77). -/
def decode (W : Nat) (w : Nat) : Except DecodeError Instr :=
  if Fits w (2 + 2 * W) then
    match bits w (2 * W + 1) (2 * W) with
    | 0 => .ok (.add (bits w (2 * W - 1) W) (bits w (W - 1) 0))
    | 1 => .ok (.isNan (bits w (2 * W - 1) W))
    | 2 => .ok (.isInf (bits w (2 * W - 1) W))
    | _ => .ok (.isSubnormal (bits w (2 * W - 1) W))
  else .error .wrongWidth

/-- `{op, x, y}` (R75). -/
def requestWord (W op : Nat) (x y : Nat) : Nat := (op <<< (2 * W)) ||| (x <<< W) ||| y

/-- The word of a request. The `y` field of a unary request may hold anything (R77); that this writes zero, as
spec/95_test_vectors.md section 3 does, is the model's choice (log 13). -/
def encode (W : Nat) : Instr → Nat
  | .add x y => requestWord W 0 x y
  | .isNan x => requestWord W 1 x 0
  | .isInf x => requestWord W 2 x 0
  | .isSubnormal x => requestWord W 3 x 0

/-- The decoder on a row of spec/opcode_table.json: `nbits` bits of `w`, read in the reference configuration, which is
the one the table is written for. A request crosses the port as one vector, so there are no bytes to order (R41, R43 of
spec/20_memory.md; log 25). -/
def decodeTableWord (nbits w : Nat) : Option Instr :=
  (decode (Cfg.reference Config.rm).W (w % 2 ^ nbits)).toOption

end Sys2Proof
end

