-- ==== Sys2Proof/Machine/State.lean ====
section
/-! DEFINITION. The state of an instance, the ways a step can end, and the state after reset.

The spec gives the machine its configuration, a request port, a response port and a reset input, and nothing else: no
register, program counter, flag or memory (R20 to R30 of spec/10_state.md, R40 of spec/20_memory.md). -/

namespace Sys2Proof.Machine

/-- Faults: none. "No operation of the ADDER ever raises an exception, faults, traps, aborts or fails to respond" (R210
of spec/60_exceptions.md), so the type has no constructor and no step ends in one (log 18). -/
inductive Fault
deriving DecidableEq, Repr

/-- Refusals. -/
inductive Refusal where
  /-- Raised by `exec` for an operation that has no meaning yet; no arm of it does. Safe: the model stops. -/
  | notModelled (mnemonic : String)
  /-- Raised by `step` when the number on the request port has a bit above bit `2W + 1` and so is no request word of this
  instance (R81 of spec/30_encoding.md; log 6). Safe: the model stops; no wires carry such a number. -/
  | notARequestWord
deriving DecidableEq, Repr

/-- An instance of the ADDER. -/
structure State where
  /-- `CFG`, the only value that outlives an operation; read-only (R23; log 1) -/
  cfg : Cfg
  /-- the request port: request words presented and not yet accepted, oldest first (R75, R46, R237; log 3) -/
  requests : List Nat
  /-- the response port: responses returned and not yet taken, oldest first (R76, R77, R46; log 3) -/
  responses : List Nat
  /-- the reset input, true while asserted (R230; log 7) -/
  resetInput : Bool
deriving DecidableEq, Repr

/-- An instance made with a configuration, nothing presented to it yet (R233 of spec/70_reset_and_hazards.md). -/
def State.ofCfg (c : Cfg) : State where
  cfg := c
  requests := []
  responses := []
  resetInput := false

/-- Right after reset: "no operation in flight, no response pending" (R230). `CFG` is the instance's and not reset's
(R231): the widths are the reference ones, the policy is open (log 2). -/
def State.reset : State := State.ofCfg (Cfg.reference Config.rm)

end Sys2Proof.Machine
end

