-- ==== Sys2Proof/Machine/Operands.lean ====
section
/-! DEFINITION. Operands and the packed format: the derived constants, the Decomposer and the Composer's packing
(R8 of spec/00_scope.md, R60 to R69 of spec/30_encoding.md, spec/40_decompose_compose.md). -/

namespace Sys2Proof

/-- `bias = 2^(E-1) - 1` (R8). No step of the computation uses it: exponents stay biased throughout (R67). -/
def Cfg.bias (c : Cfg) : Nat := 2 ^ (c.E - 1) - 1

/-- `EXP_ALL_ONES = 2^E - 1` (R8). -/
def Cfg.expAllOnes (c : Cfg) : Nat := 2 ^ c.E - 1

/-- `EXPONENT_MASK = 2^E - 1`, for the field shifted down to bit 0 (R8). -/
def Cfg.exponentMask (c : Cfg) : Nat := 2 ^ c.E - 1

/-- `FRACTION_MASK = 2^(P-1) - 1` (R8). -/
def Cfg.fractionMask (c : Cfg) : Nat := 2 ^ (c.P - 1) - 1

/-- `IMPLICIT_BIT = 2^(P-1)` (R8). -/
def Cfg.implicitBit (c : Cfg) : Nat := 1 <<< (c.P - 1)

namespace Machine

/-- The field triple (R63). -/
structure Fields where
  sign : Nat
  exponent : Nat
  fraction : Nat
deriving DecidableEq, Repr

/-- An operand as its port carries it: `W` wires (R60, R75; log 5). The one operand form there is (R66). -/
def operand (c : Cfg) (x : Nat) : Nat := x % 2 ^ c.W

/-- `decompose` (R100). -/
def decompose (c : Cfg) (value : Nat) : Fields where
  sign := bit value (c.W - 1)
  exponent := bits value (c.W - 2) (c.P - 1)
  fraction := bits value (c.P - 2) 0

/-- `compose` (R101): each field is masked to its width before packing. -/
def compose (c : Cfg) (sign exponent fraction : Nat) : Nat :=
  ((sign &&& 1) <<< (c.W - 1)) ||| ((exponent &&& c.exponentMask) <<< (c.P - 1)) ||| (fraction &&& c.fractionMask)

/-- Packed integer to native value, R103: "the conversion is the identity function on `W`-bit vectors in both
directions". -/
def packedToNative (v : Nat) : Nat := v

/-- Native value to packed integer (R103). -/
def nativeToPacked (v : Nat) : Nat := v

/-- `zext_W` of a one-bit answer (R77 of spec/30_encoding.md). -/
def boolWord (b : Bool) : Nat := if b then 1 else 0

end Machine
end Sys2Proof
end

