-- ==== Sys2Proof/Machine/Classifier.lean ====
section
/-! DEFINITION. The Classifier: the predicates on fields, the true mantissa and the predicates on a packed value
(spec/41_classify.md), and the five classes of patterns (R62 of spec/30_encoding.md). -/

namespace Sys2Proof.Machine

/-- `is_nan(exponent, fraction)` (R110). -/
def isNan (c : Cfg) (exponent fraction : Nat) : Bool := exponent == c.expAllOnes && fraction != 0

/-- `is_inf(exponent, fraction)` (R111). -/
def isInf (c : Cfg) (exponent fraction : Nat) : Bool := exponent == c.expAllOnes && fraction == 0

/-- `is_subnormal(exponent)` (R112): the exponent alone, so it is true of both zeros (log 12). -/
def isSubnormal (exponent : Nat) : Bool := exponent == 0

/-- `is_zero(exponent, fraction)` (R113): a helper for explanations; no stage calls it. -/
def isZero (exponent fraction : Nat) : Bool := exponent == 0 && fraction == 0

/-- `true_mantissa(exponent, fraction)` (R114), of the stored exponent. -/
def trueMantissa (c : Cfg) (exponent fraction : Nat) : Nat :=
  if isSubnormal exponent then fraction else fraction ||| c.implicitBit

/-- The five classes of R62. -/
inductive ValueClass where
  | zero
  | subnormal
  | normal
  | infinity
  | nan
deriving DecidableEq, Repr

/-- The class of a field triple (R61, R62). -/
def classify (c : Cfg) (f : Fields) : ValueClass :=
  if isNan c f.exponent f.fraction then .nan
  else if isInf c f.exponent f.fraction then .infinity
  else if isZero f.exponent f.fraction then .zero
  else if isSubnormal f.exponent then .subnormal
  else .normal

/-- `is_nan` of a packed value (R115). -/
def packedIsNan (c : Cfg) (x : Nat) : Bool := isNan c (decompose c x).exponent (decompose c x).fraction

/-- `is_inf` of a packed value (R116). -/
def packedIsInf (c : Cfg) (x : Nat) : Bool := isInf c (decompose c x).exponent (decompose c x).fraction

/-- `is_subnormal` of a packed value (R117). -/
def packedIsSubnormal (c : Cfg) (x : Nat) : Bool := isSubnormal (decompose c x).exponent

end Sys2Proof.Machine
end

