-- ==== Sys2Proof/Machine/Aligner.lean ====
section
/-! DEFINITION. The Aligner (spec/43_align.md) and the sticky right shift (R16 of spec/00_scope.md). -/

namespace Sys2Proof.Machine

/-- `srs(m, n)` (R16): shift right, folding every bit shifted out into bit 0. -/
def srs (m n : Nat) : Nat := (m >>> n) ||| (if m % 2 ^ n = 0 then 0 else 1)

/-- The effective exponent (R138): a stored 0 counts as 1. -/
def effectiveExponent (exponent : Nat) : Nat := if exponent = 0 then 1 else exponent

/-- The extended mantissa before alignment (R137, R139): the true mantissa of the stored exponent, three zero bits
appended for guard, round and sticky. -/
def extendedMantissa (c : Cfg) (f : Fields) : Nat := trueMantissa c f.exponent f.fraction <<< 3

/-- The Aligner's output (R135): the common exponent is held in both exponents. Exponents are integers from here on
(R14). -/
structure Aligned where
  xMantissa : Nat
  yMantissa : Nat
  xExponent : Int
  yExponent : Int
deriving DecidableEq, Repr

/-- `shift = x_exponent - y_exponent`, of the effective exponents (R140). -/
def shiftDistance (x y : Fields) : Int := (effectiveExponent x.exponent : Int) - (effectiveExponent y.exponent : Int)

/-- The stage (R146): the mantissa of the smaller exponent is shifted, by at most `P + 2` (R141, R142); with equal
exponents nothing is (R143). -/
def align (c : Cfg) (x y : Fields) : Aligned :=
  if 0 < shiftDistance x y then
    { xMantissa := extendedMantissa c x
      yMantissa := srs (extendedMantissa c y) (min (shiftDistance x y).toNat (c.P + 2))
      xExponent := effectiveExponent x.exponent
      yExponent := effectiveExponent x.exponent }
  else if shiftDistance x y < 0 then
    { xMantissa := srs (extendedMantissa c x) (min (-shiftDistance x y).toNat (c.P + 2))
      yMantissa := extendedMantissa c y
      xExponent := effectiveExponent y.exponent
      yExponent := effectiveExponent y.exponent }
  else
    { xMantissa := extendedMantissa c x
      yMantissa := extendedMantissa c y
      xExponent := effectiveExponent x.exponent
      yExponent := effectiveExponent y.exponent }

end Sys2Proof.Machine
end

