-- ==== Sys2Proof/Machine/Combiner.lean ====
section
/-! DEFINITION. The Combiner/Normalizer (spec/44_combine_normalize.md). The raw sum is a mathematical integer, so nothing
wraps (R14, R151; log 16). -/

namespace Sys2Proof.Machine

/-- The working value that leaves the stage: `z_sign`, `z_exponent`, `z_mantissa`. -/
structure Working where
  sign : Nat
  exponent : Int
  mantissa : Nat
deriving DecidableEq, Repr

/-- `subtract = (x_sign != y_sign)` (R150). -/
def subtracts (xSign ySign : Nat) : Bool := xSign != ySign

/-- The combination (R152), signed. -/
def combine (subtract : Bool) (xMantissa yMantissa : Nat) : Int :=
  if subtract then (xMantissa : Int) - (yMantissa : Int) else (xMantissa : Int) + (yMantissa : Int)

/-- `z_sign` after R153 and R155: the sign of `x`, flipped when the raw sum is negative. -/
def resultSign (xSign : Nat) (raw : Int) : Nat := if raw < 0 then 1 - xSign else xSign

/-- The mantissa after the carry-out shift (R156). -/
def carryMantissa (c : Cfg) (m : Nat) : Nat := if m.testBit (c.P + 3) then (m >>> 1) ||| (m &&& 1) else m

/-- The exponent after the carry-out shift (R156). -/
def carryExponent (c : Cfg) (m : Nat) (e : Int) : Int := if m.testBit (c.P + 3) then e + 1 else e

/-- The normalisation loop (R158): mantissa and exponent after at most `fuel` left shifts. It has no lower limit on the
exponent. -/
def normLoop (c : Cfg) : (fuel : Nat) → (m : Nat) → (e : Int) → Nat × Int
  | 0, m, e => (m, e)
  | fuel + 1, m, e => if m.testBit (c.P + 2) then (m, e) else normLoop c fuel (m <<< 1) (e - 1)

/-- The fuel of the loop, `P + 3` (R160; log 17). The loop of a mantissa that reaches it runs at most `P` times (R159). -/
def normFuel (c : Cfg) : Nat := c.P + 3

/-- The single-step form that R160 allows in the loop's place: count the zeros above the highest set bit, shift once. No
other definition uses it. -/
def normOnce (c : Cfg) (m : Nat) (e : Int) : Nat × Int :=
  (m <<< (c.P + 2 - m.log2), e - ((c.P + 2 - m.log2 : Nat) : Int))

/-- The stage (R162). `none` is the zero result of R154, on which ADD ends with `+0` (log 10). -/
def combineNormalize (c : Cfg) (xSign ySign : Nat) (a : Aligned) : Option Working :=
  let raw := combine (subtracts xSign ySign) a.xMantissa a.yMantissa
  if raw = 0 then none
  else
    let n := normLoop c (normFuel c) (carryMantissa c raw.natAbs) (carryExponent c raw.natAbs a.xExponent)
    some { sign := resultSign xSign raw, exponent := n.2, mantissa := n.1 }

end Sys2Proof.Machine
end

