-- ==== Sys2Proof/Machine/Flags.lean ====
section
/-! DEFINITION. The guard, round and sticky bits and what each rounding policy decides from them (R170 to R175 of
spec/45_round.md). They are bits of a working value. The ADDER has no architectural flag: no operation writes a status
bit, and an overflow, an underflow, an inexact or an invalid case leaves no mark but the result (R22 of
spec/10_state.md, R211 of spec/60_exceptions.md). -/

namespace Sys2Proof.Machine

/-- `LSB`, `G`, `R`, `S` of an extended mantissa (R65, R170). -/
structure RoundBits where
  lsb : Bool
  g : Bool
  r : Bool
  s : Bool
deriving DecidableEq, Repr

/-- `LSB = z_mantissa[3]`, `G = z_mantissa[2]`, `R = z_mantissa[1]`, `S = z_mantissa[0]`, before any increment (R170). -/
def roundBits (m : Nat) : RoundBits where
  lsb := m.testBit 3
  g := m.testBit 2
  r := m.testBit 1
  s := m.testBit 0

/-- The selector (R171): whether the magnitude grows by one unit of `LSB`. -/
def roundUp (rm : RoundingPolicy) (sign : Nat) (b : RoundBits) : Bool :=
  match rm with
  | .rne => b.g && (b.r || b.s || b.lsb)
  | .rdn => sign == 1 && (b.g || b.r || b.s)
  | .rup => sign == 0 && (b.g || b.r || b.s)
  | .rtz => false

end Sys2Proof.Machine
end

