-- ==== Sys2Proof/Machine/Rounder.lean ====
section
/-! DEFINITION. The Rounder (spec/45_round.md): the only stage that reads `RM`. -/

namespace Sys2Proof.Machine

/-- The extended mantissa after the increment (R176): one unit of `LSB` is 8. -/
def roundIncrement (c : Cfg) (w : Working) : Nat :=
  if roundUp c.rm w.sign (roundBits w.mantissa) then w.mantissa + 8 else w.mantissa

/-- The stage (R181): increment, strip the three low bits (R177), and shift once more on a rounding carry (R178). -/
def roundStage (c : Cfg) (w : Working) : Working :=
  if (roundIncrement c w >>> 3).testBit c.P then
    { sign := w.sign, exponent := w.exponent + 1, mantissa := (roundIncrement c w >>> 3) >>> 1 }
  else
    { sign := w.sign, exponent := w.exponent, mantissa := roundIncrement c w >>> 3 }

end Sys2Proof.Machine
end

