-- ==== Sys2Proof/Machine/Composer.lean ====
section
/-! DEFINITION. Final assembly (R185 to R192 of spec/46_assemble_add.md): scaled composition at the bit level, in three
ranges of the exponent (log 19). -/

namespace Sys2Proof.Machine

/-- R192: too large gives the infinity of the sign under every policy (R188; log 11); storable packs directly, which
drops the implicit bit (R189); below the normal range denormalises (R190). -/
def assemble (c : Cfg) (w : Working) : Nat :=
  if (c.expAllOnes : Int) ≤ w.exponent then compose c w.sign c.expAllOnes 0
  else if 1 ≤ w.exponent then compose c w.sign w.exponent.toNat w.mantissa
  else compose c w.sign 0 (w.mantissa >>> (1 - w.exponent).toNat)

end Sys2Proof.Machine
end

