-- ==== Sys2Proof/Machine/Special.lean ====
section
/-! DEFINITION. The special-value short-circuit of ADD (spec/42_special_values.md), evaluated before any arithmetic. -/

namespace Sys2Proof.Machine

/-- `CANON_NAN = compose(0, EXP_ALL_ONES, 1)` (R126), the one NaN pattern ADD returns. The document's literal, kept as
one named constant (R10; log 9). -/
def canonNan (c : Cfg) : Nat := compose c 0 c.expAllOnes 1

/-- R131: the answer of the short-circuit, or `none` when both operands are finite. The order is that of R215 of
spec/60_exceptions.md: NaN, both infinite, `x` infinite, `y` infinite. -/
def shortCircuit (c : Cfg) (x y : Nat) : Option Nat :=
  if packedIsNan c x || packedIsNan c y then some (canonNan c)
  else if packedIsInf c x && packedIsInf c y then
    if (decompose c x).sign = (decompose c y).sign then some x else some (canonNan c)
  else if packedIsInf c x then some x
  else if packedIsInf c y then some y
  else none

end Sys2Proof.Machine
end

