-- ==== Sys2Proof/Machine/Adder.lean ====
section
/-! DEFINITION. The function `add(x, y)` of R193 and R194 of spec/46_assemble_add.md: the stages in the document's
order. -/

namespace Sys2Proof.Machine

/-- The arithmetic of ADD on two finite operands: align, combine and normalise, round, assemble; `+0` when the raw sum is
zero (R154). -/
def addFinite (c : Cfg) (x y : Fields) : Nat :=
  match combineNormalize c x.sign y.sign (align c x y) with
  | none => compose c 0 0 0
  | some w => assemble c (roundStage c w)

/-- `add(x, y)` (R193): "total function over all bit patterns of the configured format; never fails, never blocks". -/
def addPacked (c : Cfg) (x y : Nat) : Nat :=
  match shortCircuit c x y with
  | some z => z
  | none => addFinite c (decompose c x) (decompose c y)

end Sys2Proof.Machine
end

