-- ==== Sys2Proof/Machine/Ops.lean ====
section
/-! DEFINITION. The named operations over the ports and the reset input.

There is no memory and no register file to operate on (R20 of spec/10_state.md, R40 of spec/20_memory.md). There is no
exception to take and none to return from (R210 of spec/60_exceptions.md: "there are no cause codes, no vector
addresses, no exception state to save, no handler entry and no return-from-handler operation"), so no such operation
stands here (log 18). -/

namespace Sys2Proof.Machine

/-- A response leaves on the response port, behind those still pending (R46, R76). -/
def State.respond (s : State) (r : Nat) : State := { s with responses := s.responses ++ [r] }

/-- The instance accepts the oldest request on its port: the word, and the state without it (R43: taken whole; R46: in
order). -/
def fetch (s : State) : Option (Nat × State) :=
  match s.requests with
  | [] => none
  | w :: rest => some (w, { s with requests := rest })

/-- What an asserted reset input leaves: no operation in flight, no response pending, nothing accepted, `CFG` as it was
(R230 to R232 of spec/70_reset_and_hazards.md; log 7). -/
def State.clear (s : State) : State := { s with requests := [], responses := [] }

/-- Host action: present a request word (R220(b)). While reset is asserted it is not accepted (R232). -/
def State.present (s : State) (w : Nat) : State :=
  if s.resetInput then s else { s with requests := s.requests ++ [w] }

/-- Host action: take the oldest pending response (R220(c)). -/
def State.takeResponse (s : State) : Option (Nat × State) :=
  match s.responses with
  | [] => none
  | r :: rest => some (r, { s with responses := rest })

/-- Host action: drive the reset input (R230). Asserting it empties the ports at once; releasing it changes nothing
else. -/
def State.driveReset (s : State) (asserted : Bool) : State :=
  if asserted then { s.clear with resetInput := true } else { s with resetInput := false }

end Sys2Proof.Machine
end

