-- ==== Sys2Proof/Machine/Add.lean ====
section
/-! DEFINITION. The operation ADD (R193 of spec/46_assemble_add.md). -/

namespace Sys2Proof.Machine

/-- The response to `ADD x, y` (R76, R193). -/
def addResponse (c : Cfg) (x y : Nat) : Nat := addPacked c (operand c x) (operand c y)

/-- ADD: one response, no flag, no exception (R193). -/
def execAdd (x y : Nat) (s : State) : Host.Outcome State Fault Refusal :=
  .next (s.respond (addResponse s.cfg x y))

end Sys2Proof.Machine
end

