-- ==== Sys2Proof/Machine/Predicates.lean ====
section
/-! DEFINITION. The operations IS_NAN, IS_INF and IS_SUBNORMAL (R115 to R117 of spec/41_classify.md). -/

namespace Sys2Proof.Machine

/-- The response to `IS_NAN x` (R77, R115). -/
def isNanResponse (c : Cfg) (x : Nat) : Nat := boolWord (packedIsNan c (operand c x))

/-- The response to `IS_INF x` (R77, R116). -/
def isInfResponse (c : Cfg) (x : Nat) : Nat := boolWord (packedIsInf c (operand c x))

/-- The response to `IS_SUBNORMAL x` (R77, R117). -/
def isSubnormalResponse (c : Cfg) (x : Nat) : Nat := boolWord (packedIsSubnormal c (operand c x))

/-- IS_NAN (R115). -/
def execIsNan (x : Nat) (s : State) : Host.Outcome State Fault Refusal :=
  .next (s.respond (isNanResponse s.cfg x))

/-- IS_INF (R116). -/
def execIsInf (x : Nat) (s : State) : Host.Outcome State Fault Refusal :=
  .next (s.respond (isInfResponse s.cfg x))

/-- IS_SUBNORMAL (R117). -/
def execIsSubnormal (x : Nat) (s : State) : Host.Outcome State Fault Refusal :=
  .next (s.respond (isSubnormalResponse s.cfg x))

end Sys2Proof.Machine
end

