-- ==== Sys2Proof/Machine/Dispatch.lean ====
section
/-! DEFINITION. One arm per operation of spec/opcode_table.json. -/

namespace Sys2Proof.Machine

def exec (i : Instr) (s : State) : Host.Outcome State Fault Refusal :=
  match i with
  | .add x y => Sys2Proof.Machine.execAdd x y s
  | .isNan x => Sys2Proof.Machine.execIsNan x s
  | .isInf x => Sys2Proof.Machine.execIsInf x s
  | .isSubnormal x => Sys2Proof.Machine.execIsSubnormal x s

end Sys2Proof.Machine
end

