-- ==== Sys2Proof/Machine/Step.lean ====
section
/-! DEFINITION. One step: one whole operation (R21 of spec/10_state.md, R237 of spec/70_reset_and_hazards.md). -/

namespace Sys2Proof.Machine

/-- One step of the instance. With reset asserted nothing is accepted and nothing is answered (R230, R232). With no
request on the port the instance "simply does nothing" (R216 of spec/60_exceptions.md; log 4). Otherwise the oldest
request is accepted and answered in the same step (R46, R237). -/
def step (s : State) : Host.Outcome State Fault Refusal :=
  if s.resetInput then .next s.clear
  else
    match fetch s with
    | none => .next s
    | some (w, s') =>
      match decode s.cfg.W w with
      | .ok i => exec i s'
      | .error .wrongWidth => .refused .notARequestWord

/-- The state with the request word whose `nbits` bits are `w` first on the request port of an instance that is not held
in reset, so that the next step accepts it (log 3). -/
def State.withFetchWord (s : State) (nbits w : Nat) : State :=
  { s with requests := (w % 2 ^ nbits) :: s.requests, resetInput := false }

end Sys2Proof.Machine
end

