-- ==== Sys2Proof/Machine/Response.lean ====
section
/-! DEFINITION. The function of `(CFG, request)` that every response is (R235, R237 of spec/70_reset_and_hazards.md:
`step : CFG -> Request -> Response`, "with no state argument and no state result"). Statements are made in its terms. -/

namespace Sys2Proof.Machine

/-- The response to a request, `CFG` a parameter (R23 of spec/10_state.md, R237). -/
def response (c : Cfg) : Instr → Nat
  | .add x y => addResponse c x y
  | .isNan x => isNanResponse c x
  | .isInf x => isInfResponse c x
  | .isSubnormal x => isSubnormalResponse c x

end Sys2Proof.Machine
end

