-- ==== Sys2Proof/Machine/Value.lean ====
section
/-! DEFINITION. The real value of a packed pattern (R17 of spec/00_scope.md) and what a correctly rounded sum is (R201 of
spec/46_assemble_add.md). Used in statements only, never in the computation. -/

namespace Sys2Proof.Machine

/-- Neither NaN nor infinite: the stored exponent is not all ones (R61). -/
def packedIsFinite (c : Cfg) (v : Nat) : Bool := (decompose c v).exponent != c.expAllOnes

/-- `(-1)^sign` as an integer. -/
def signFactor (sign : Nat) : Int := if sign = 1 then -1 else 1

/-- The value of a pattern (R17): `(-1)^sign * true_mantissa * 2^(max(exponent, 1) - bias - (P - 1))`. -/
def realValue (c : Cfg) (v : Nat) : ℚ :=
  signFactor (decompose c v).sign * trueMantissa c (decompose c v).exponent (decompose c v).fraction *
    (2 : ℚ) ^ (((max (decompose c v).exponent 1 : Nat) : Int) - c.bias - (c.P - 1))

/-- The value of a finite pattern as a whole number of smallest subnormals, `2^(1 - bias - (P - 1))` each (the unit of
R191): the sum of two of them is the exact sum of the two patterns. -/
def units (c : Cfg) (v : Nat) : Int :=
  signFactor (decompose c v).sign * trueMantissa c (decompose c v).exponent (decompose c v).fraction *
    2 ^ (effectiveExponent (decompose c v).exponent - 1)

/-- The largest finite value, in the same unit: `2^P - 1` at the stored exponent `2^E - 2`. -/
def maxFiniteUnits (c : Cfg) : Int := (2 ^ c.P - 1) * 2 ^ (2 ^ c.E - 3)

/-- `z` is the finite pattern that rounding the exact sum `total` in the policy's direction gives (R172 to R175, R201):
the nearest one, the even one on a tie; the greatest not above; the least not below; the one of greatest magnitude
toward zero. -/
def CorrectlyRounded (c : Cfg) (total : Int) (z : Nat) : Prop :=
  match c.rm with
  | .rne => ∀ v, Fits v c.W → packedIsFinite c v →
      |units c z - total| ≤ |units c v - total| ∧
        (|units c z - total| = |units c v - total| → units c v ≠ units c z → (decompose c z).fraction % 2 = 0)
  | .rdn => units c z ≤ total ∧ ∀ v, Fits v c.W → packedIsFinite c v → units c v ≤ total → units c v ≤ units c z
  | .rup => total ≤ units c z ∧ ∀ v, Fits v c.W → packedIsFinite c v → total ≤ units c v → units c z ≤ units c v
  | .rtz => |units c z| ≤ |total| ∧ 0 ≤ units c z * total ∧
      ∀ v, Fits v c.W → packedIsFinite c v → 0 ≤ units c v * total → |units c v| ≤ |total| → |units c v| ≤ |units c z|

end Sys2Proof.Machine
end

