-- ==== Sys2Proof/Safety.lean ====
section
/-! DEFINITION. What counts as a safe run, and the ranges of working values, in the terms the statements use. -/

namespace Sys2Proof.Machine

/-- Every port holds words of its own width: requests of `2 + 2W` bits (R81 of spec/30_encoding.md), responses of `W`
bits (R76, R77). -/
abbrev State.Inv (s : State) : Prop :=
  (∀ w ∈ s.requests, Fits w (2 + 2 * s.cfg.W)) ∧ (∀ r ∈ s.responses, Fits r s.cfg.W)

/-- The step ends in a next state: no fault, no refusal (R210 of spec/60_exceptions.md). -/
abbrev Safe (s : State) : Prop := ∃ s', step s = .next s'

/-- The exponent field of a pattern in plain arithmetic: bits `W-2 : P-1` (R60). -/
abbrev exponentField (c : Cfg) (v : Nat) : Nat := v / 2 ^ (c.P - 1) % 2 ^ c.E

/-- The fraction field: bits `P-2 : 0` (R60). -/
abbrev fractionField (c : Cfg) (v : Nat) : Nat := v % 2 ^ (c.P - 1)

/-- The sign field: bit `W-1` (R60). -/
abbrev signField (c : Cfg) (v : Nat) : Nat := v / 2 ^ (c.W - 1) % 2

/-- A NaN pattern (R61). -/
abbrev NanPattern (c : Cfg) (v : Nat) : Prop := exponentField c v = 2 ^ c.E - 1 ∧ fractionField c v ≠ 0

/-- An infinity pattern (R61). -/
abbrev InfPattern (c : Cfg) (v : Nat) : Prop := exponentField c v = 2 ^ c.E - 1 ∧ fractionField c v = 0

/-- A finite pattern: neither NaN nor infinite (R61, R62). -/
abbrev FinitePattern (c : Cfg) (v : Nat) : Prop := exponentField c v ≠ 2 ^ c.E - 1

/-- The instance's next state when it answers `r`: one response more, everything else as before. -/
abbrev State.answering (s : State) (r : Nat) : State := { s with responses := s.responses ++ [r] }

/-- The Combiner/Normalizer's answer for two packed operands. -/
abbrev normalisedSum (c : Cfg) (x y : Nat) : Option Working :=
  combineNormalize c (decompose c x).sign (decompose c y).sign (align c (decompose c x) (decompose c y))

/-- The raw signed sum of two packed operands (R152). -/
abbrev rawSum (c : Cfg) (x y : Nat) : Int :=
  combine (subtracts (decompose c x).sign (decompose c y).sign) (align c (decompose c x) (decompose c y)).xMantissa
    (align c (decompose c x) (decompose c y)).yMantissa

/-- Fields in their declared widths (R63). -/
abbrev Fields.inRange (c : Cfg) (f : Fields) : Prop :=
  f.sign ≤ 1 ∧ f.exponent < 2 ^ c.E ∧ f.fraction < 2 ^ (c.P - 1)

/-- Fields of a finite operand: what the Aligner is given (R135). -/
abbrev Fields.isFinite (c : Cfg) (f : Fields) : Prop := f.inRange c ∧ f.exponent ≠ c.expAllOnes

/-- The ranges of the Combiner/Normalizer's output (R28, R161). -/
abbrev Working.normalised (c : Cfg) (w : Working) : Prop :=
  w.sign ≤ 1 ∧ 2 ^ (c.P + 2) ≤ w.mantissa ∧ w.mantissa < 2 ^ (c.P + 3) ∧
    2 - (c.P : Int) ≤ w.exponent ∧ w.exponent ≤ 2 ^ c.E - 1

/-- The ranges of the Rounder's output (R28, R179): the implied bit is set. -/
abbrev Working.final (c : Cfg) (w : Working) : Prop :=
  w.sign ≤ 1 ∧ 2 ^ (c.P - 1) ≤ w.mantissa ∧ w.mantissa < 2 ^ c.P ∧
    2 - (c.P : Int) ≤ w.exponent ∧ w.exponent ≤ 2 ^ c.E

end Sys2Proof.Machine
end

