-- ==== Sys2Proof/Certificates/Slice0/Obligations.lean ====
section
/-! DEFINITION. The statements for the provers. `c` and `s.cfg` range over every well-formed configuration: every width
of exponent and significand and all four policies. -/

open Sys2Proof Sys2Proof.Machine

-- Encoding ------------------------------------------------------------------------------------------------------------

/-- R75, R77, R78: each of the four values of `op` is an operation, its operands are the two fields, and the `y` field of
a unary request changes nothing. -/
def Obligations.RequestWordDecodesByItsOpField : Prop :=
  ∀ (c : Cfg) (x y : Nat), Fits x c.W → Fits y c.W →
    decode c.W (0 * 2 ^ (2 * c.W) + x * 2 ^ c.W + y) = .ok (.add x y) ∧
    decode c.W (1 * 2 ^ (2 * c.W) + x * 2 ^ c.W + y) = .ok (.isNan x) ∧
    decode c.W (2 * 2 ^ (2 * c.W) + x * 2 ^ c.W + y) = .ok (.isInf x) ∧
    decode c.W (3 * 2 ^ (2 * c.W) + x * 2 ^ c.W + y) = .ok (.isSubnormal x)

/-- R78: "A decoder of request words is total." What is decoded is well formed. -/
def Obligations.DecoderIsTotalOnRequestWords : Prop :=
  ∀ (c : Cfg) (w : Nat), Fits w (2 + 2 * c.W) → ∃ i : Instr, decode c.W w = .ok i ∧ i.wf c.W = true

/-- Every request, with every operand at every value the encoding admits, is read back from its word (R75). -/
def Obligations.DecodeOfEncodeIsTheRequest : Prop :=
  ∀ (c : Cfg) (i : Instr), i.wf c.W = true → decode c.W (encode c.W i) = .ok i

/-- Encoding what was decoded gives an ADD word back whole (R75). Of a unary word it gives back `op` and `x`, with `y`
cleared: R77 says only that `y` is ignored, and that the encoder writes 0 there is the model's choice (log 13). -/
def Obligations.EncodeOfDecodeIsTheWord : Prop :=
  ∀ (c : Cfg) (w : Nat) (i : Instr), decode c.W w = .ok i →
    encode c.W i = if w / 2 ^ (2 * c.W) = 0 then w else w - w % 2 ^ c.W

/-- A few words of the reference configuration, written out from R75 (spec/95_test_vectors.md, programs 1, 3 and 4). -/
def Obligations.SampleRequestWordsDecode : Prop :=
  decodeTableWord 72 0x03F80000040000000 = some (.add 0x3F800000 0x40000000) ∧
  decodeTableWord 72 0x17F80000100000000 = some (.isNan 0x7F800001) ∧
  decodeTableWord 72 0x27F80000100000000 = some (.isInf 0x7F800001) ∧
  decodeTableWord 72 0x3007FFFFF00000000 = some (.isSubnormal 0x007FFFFF)

-- Configuration -------------------------------------------------------------------------------------------------------

/-- R9, R213: an instance's configuration can be made exactly from `E >= 2`, `P >= 2` and one of the four codes of R73,
and it is the one asked for. -/
def Obligations.ConfigurationIsMadeExactlyWhenWellFormed : Prop :=
  ∀ (E P code : Nat),
    ((Cfg.make E P code).isSome = true ↔ 2 ≤ E ∧ 2 ≤ P ∧ code < 4) ∧
    ∀ c : Cfg, Cfg.make E P code = some c → c.E = E ∧ c.P = P ∧ c.rm.code = code

-- Machine -------------------------------------------------------------------------------------------------------------

/-- When the word at the request port decodes to `i`, the step is `exec` of `i` on the state without that word. With
nothing at the port the instance "simply does nothing" (R216); a number that is no request word is refused (the model's
choice, log 6); and `withFetchWord` places the word where the next step accepts it (log 3). -/
def Obligations.StepRunsTheDecodedRequest : Prop :=
  (∀ (s : State) (w : Nat) (rest : List Nat) (i : Instr), s.resetInput = false → s.requests = w :: rest →
    decode s.cfg.W w = .ok i → step s = exec i { s with requests := rest }) ∧
  (∀ (s : State) (w : Nat) (rest : List Nat), s.resetInput = false → s.requests = w :: rest →
    ¬ Fits w (2 + 2 * s.cfg.W) → step s = .refused .notARequestWord) ∧
  (∀ s : State, s.resetInput = false → s.requests = [] → step s = .next s) ∧
  (∀ (s : State) (nbits w : Nat) (i : Instr), decode s.cfg.W (w % 2 ^ nbits) = .ok i →
    step (s.withFetchWord nbits w) = exec i { s with resetInput := false })

/-- R237: an operation is its response, a function of `CFG` and the request; no operation changes anything else. -/
def Obligations.OperationsOnlyAddTheirResponse : Prop :=
  ∀ (i : Instr) (s : State), exec i s = .next (s.answering (response s.cfg i))

/-- R45: the response depends on the request and on `CFG` only, whatever is or was on the ports. -/
def Obligations.ResponseDependsOnRequestAndConfiguration : Prop :=
  ∀ (i : Instr) (s t s' t' : State), s.cfg = t.cfg → exec i s = .next s' → exec i t = .next t' →
    ∃ r : Nat, s'.responses = s.responses ++ [r] ∧ t'.responses = t.responses ++ [r]

/-- The widths of the words on the ports are kept by every step, and so are `CFG` and the reset input (R23, R231). -/
def Obligations.StepKeepsPortWidthsAndConfiguration : Prop :=
  ∀ s s' : State, s.Inv → step s = .next s' → s'.Inv ∧ s'.cfg = s.cfg ∧ s'.resetInput = s.resetInput

/-- After R210, "No operation of the ADDER ever raises an exception, faults, traps, aborts or fails to respond": every
operation completes with one response more, and so does the step that accepts a request word, both ports being queues by
the model's choice (log 3); with request words on the port no step stops. -/
def Obligations.NothingEverStops : Prop :=
  (∀ (i : Instr) (s : State), ∃ r : Nat, exec i s = .next (s.answering r)) ∧
  (∀ (s : State) (w : Nat) (rest : List Nat), s.Inv → s.resetInput = false → s.requests = w :: rest →
    ∃ r : Nat, Fits r s.cfg.W ∧ step s = .next (State.answering { s with requests := rest } r)) ∧
  ∀ s : State, s.Inv → Safe s

/-- R230, R231: no operation in flight, no response pending, the widths of the reference configuration (the model's
choice of instance, log 2), and the port invariant. -/
def Obligations.ResetLeavesNothingPending : Prop :=
  State.reset.requests = [] ∧ State.reset.responses = [] ∧ State.reset.resetInput = false ∧
  State.reset.cfg.E = 8 ∧ State.reset.cfg.P = 24 ∧ State.reset.Inv

/-- R230 to R232, with the model's choice (log 7) that what waits at the request port is dropped too: reset discards what
waits and what is pending and keeps `CFG`; while it is asserted no request is accepted and a step answers nothing; after
it, the first request is answered with no influence from before. -/
def Obligations.ResetDiscardsAndLeavesNoTrace : Prop :=
  ∀ (s : State) (w : Nat) (i : Instr),
    ((s.driveReset true).cfg = s.cfg ∧ (s.driveReset true).requests = [] ∧ (s.driveReset true).responses = []) ∧
    (s.driveReset true).present w = s.driveReset true ∧
    step (s.driveReset true) = .next (s.driveReset true) ∧
    (decode s.cfg.W w = .ok i →
      step (((s.driveReset true).driveReset false).present w) = .next ((State.ofCfg s.cfg).answering (response s.cfg i)))

/-- R235: requests `q1, ..., qn` get the responses `f(q1), ..., f(qn)` in that order, one each. -/
def Obligations.RunAnswersEveryRequestInOrder : Prop :=
  ∀ s : State, s.Inv → s.resetInput = false →
    ∃ is : List Instr, List.Forall₂ (fun w i => decode s.cfg.W w = .ok i) s.requests is ∧
      Host.Core.run core s.requests.length s =
        .next { s with requests := [], responses := s.responses ++ is.map (response s.cfg) }

/-- R46: the host takes the responses of a run in the order its requests were presented: a response answered last is
taken last. -/
def Obligations.ResponsesAreTakenOldestFirst : Prop :=
  ∀ (s : State) (r : Nat),
    ((s.responses = [] → (s.respond r).takeResponse = some (r, s)) ∧
     ∀ (q : Nat) (s' : State), s.takeResponse = some (q, s') → (s.respond r).takeResponse = some (q, s'.respond r))

-- Predicates ----------------------------------------------------------------------------------------------------------

/-- R115: IS_NAN. -/
def Obligations.IsNanTestsExponentAndFraction : Prop :=
  ∀ (x : Nat) (s : State),
    exec (.isNan x) s = .next (s.answering (if NanPattern s.cfg x then 1 else 0)) ∧
    (Fits x s.cfg.W → ∀ y : Nat, Fits y s.cfg.W → decode s.cfg.W (1 * 2 ^ (2 * s.cfg.W) + x * 2 ^ s.cfg.W + y) = .ok (.isNan x))

/-- R116: IS_INF; true of exactly two patterns. -/
def Obligations.IsInfTestsExponentAndFraction : Prop :=
  ∀ (x : Nat) (s : State),
    exec (.isInf x) s = .next (s.answering (if InfPattern s.cfg x then 1 else 0)) ∧
    (Fits x s.cfg.W → (InfPattern s.cfg x ↔ x = compose s.cfg 0 s.cfg.expAllOnes 0 ∨ x = compose s.cfg 1 s.cfg.expAllOnes 0)) ∧
    (Fits x s.cfg.W → ∀ y : Nat, Fits y s.cfg.W → decode s.cfg.W (2 * 2 ^ (2 * s.cfg.W) + x * 2 ^ s.cfg.W + y) = .ok (.isInf x))

/-- R117: IS_SUBNORMAL; true of both zeros. -/
def Obligations.IsSubnormalTestsTheExponent : Prop :=
  ∀ (x : Nat) (s : State),
    exec (.isSubnormal x) s = .next (s.answering (if exponentField s.cfg x = 0 then 1 else 0)) ∧
    (Fits x s.cfg.W → ∀ y : Nat, Fits y s.cfg.W → decode s.cfg.W (3 * 2 ^ (2 * s.cfg.W) + x * 2 ^ s.cfg.W + y) = .ok (.isSubnormal x))

/-- R118: the three predicates exclude each other, fail together exactly on normal values, and ignore the sign. -/
def Obligations.PredicatesPartitionThePatterns : Prop :=
  ∀ (c : Cfg) (x : Nat), Fits x c.W →
    response c (.isNan x) + response c (.isInf x) + response c (.isSubnormal x) ≤ 1 ∧
    (response c (.isNan x) + response c (.isInf x) + response c (.isSubnormal x) = 0 ↔
      1 ≤ exponentField c x ∧ exponentField c x ≤ 2 ^ c.E - 2) ∧
    response c (.isNan (x ^^^ (1 <<< (c.W - 1)))) = response c (.isNan x) ∧
    response c (.isInf (x ^^^ (1 <<< (c.W - 1)))) = response c (.isInf x) ∧
    response c (.isSubnormal (x ^^^ (1 <<< (c.W - 1)))) = response c (.isSubnormal x)

/-- The five classes of R62, each by its condition on the fields. -/
def Obligations.EveryPatternHasOneClass : Prop :=
  ∀ (c : Cfg) (v : Nat), Fits v c.W →
    (classify c (decompose c v) = .zero ↔ exponentField c v = 0 ∧ fractionField c v = 0) ∧
    (classify c (decompose c v) = .subnormal ↔ exponentField c v = 0 ∧ fractionField c v ≠ 0) ∧
    (classify c (decompose c v) = .normal ↔ 1 ≤ exponentField c v ∧ exponentField c v ≤ 2 ^ c.E - 2) ∧
    (classify c (decompose c v) = .infinity ↔ InfPattern c v) ∧
    (classify c (decompose c v) = .nan ↔ NanPattern c v)

-- Packed format -------------------------------------------------------------------------------------------------------

/-- R102: exact inverses over the valid ranges, truncation outside them. -/
def Obligations.DecomposeAndComposeAreInverse : Prop :=
  ∀ c : Cfg,
    (∀ v : Nat, Fits v c.W → compose c (decompose c v).sign (decompose c v).exponent (decompose c v).fraction = v) ∧
    (∀ sg e f : Nat, sg ≤ 1 → e < 2 ^ c.E → f < 2 ^ (c.P - 1) → decompose c (compose c sg e f) = ⟨sg, e, f⟩) ∧
    (∀ sg e f : Nat, decompose c (compose c sg e f) = ⟨sg &&& 1, e &&& c.exponentMask, f &&& c.fractionMask⟩)

-- ADD -----------------------------------------------------------------------------------------------------------------

/-- R195: ADD answers, in every state and on every pair of operands, a `W`-bit pattern that depends on `CFG`, `x` and `y`
only, and changes nothing else. -/
def Obligations.AddAnswersAPattern : Prop :=
  ∀ (c : Cfg) (x y : Nat), ∃ z : Nat, Fits z c.W ∧
    ∀ s : State, s.cfg = c → exec (.add x y) s = .next (s.answering z)

/-- R126, R127: a NaN operand gives the canonical NaN, whatever the other operand. -/
def Obligations.AddOfNanIsTheCanonicalNan : Prop :=
  ∀ (x y : Nat) (s : State), NanPattern s.cfg x ∨ NanPattern s.cfg y →
    exec (.add x y) s = .next (s.answering ((2 ^ s.cfg.E - 1) * 2 ^ (s.cfg.P - 1) + 1))

/-- R128: exactly one operand infinite and neither NaN gives that operand unchanged. -/
def Obligations.AddOfOneInfinityIsThatInfinity : Prop :=
  ∀ (x y : Nat) (s : State), Fits x s.cfg.W → Fits y s.cfg.W →
    (InfPattern s.cfg x → FinitePattern s.cfg y → exec (.add x y) s = .next (s.answering x)) ∧
    (FinitePattern s.cfg x → InfPattern s.cfg y → exec (.add x y) s = .next (s.answering y))

/-- R129, R130: two infinities give themselves when the signs agree and the canonical NaN when they differ. -/
def Obligations.AddOfTwoInfinities : Prop :=
  ∀ (x y : Nat) (s : State), Fits x s.cfg.W → Fits y s.cfg.W → InfPattern s.cfg x → InfPattern s.cfg y →
    (signField s.cfg x = signField s.cfg y → exec (.add x y) s = .next (s.answering x) ∧ x = y) ∧
    (signField s.cfg x ≠ signField s.cfg y →
      exec (.add x y) s = .next (s.answering ((2 ^ s.cfg.E - 1) * 2 ^ (s.cfg.P - 1) + 1)))

/-- R154: finite operands give the all-zero pattern exactly when their exact sum is zero, under every policy. -/
def Obligations.AddIsPlusZeroExactlyOnZeroSums : Prop :=
  ∀ (c : Cfg) (x y : Nat), Fits x c.W → Fits y c.W → FinitePattern c x → FinitePattern c y →
    (response c (.add x y) = 0 ↔ realValue c x + realValue c y = 0)

/-- R200: ADD never answers `-0`. -/
def Obligations.AddNeverAnswersMinusZero : Prop :=
  ∀ (c : Cfg) (x y : Nat), response c (.add x y) ≠ compose c 1 0 0

/-- R198: a NaN answer is the canonical one, and comes only of a NaN operand or of infinities of opposite sign. -/
def Obligations.AddAnswersNanOnlyForNanOrOppositeInfinities : Prop :=
  ∀ (c : Cfg) (x y : Nat), Fits x c.W → Fits y c.W →
    (NanPattern c (response c (.add x y)) ↔
      NanPattern c x ∨ NanPattern c y ∨ (InfPattern c x ∧ InfPattern c y ∧ signField c x ≠ signField c y)) ∧
    (NanPattern c (response c (.add x y)) → response c (.add x y) = canonNan c)

/-- R196: bit for bit, for all operands, NaNs included. -/
def Obligations.AddIsCommutative : Prop :=
  ∀ (x y : Nat) (s : State), exec (.add x y) s = exec (.add y x) s

/-- R197: adding a zero of either sign gives a finite operand back, but for the zeros themselves, which give `+0`. -/
def Obligations.AddOfZeroIsTheOtherOperand : Prop :=
  ∀ (x : Nat) (s : State), Fits x s.cfg.W → FinitePattern s.cfg x →
    (x ≠ 0 → x ≠ 2 ^ (s.cfg.W - 1) →
      exec (.add x 0) s = .next (s.answering x) ∧ exec (.add x (2 ^ (s.cfg.W - 1))) s = .next (s.answering x)) ∧
    (x = 0 ∨ x = 2 ^ (s.cfg.W - 1) →
      exec (.add x 0) s = .next (s.answering 0) ∧ exec (.add x (2 ^ (s.cfg.W - 1))) s = .next (s.answering 0))

/-- R201: on finite operands a finite answer is exactly the correctly rounded sum in the policy's direction. -/
def Obligations.AddIsCorrectlyRounded : Prop :=
  ∀ (c : Cfg) (x y : Nat), Fits x c.W → Fits y c.W → FinitePattern c x → FinitePattern c y →
    FinitePattern c (response c (.add x y)) →
    CorrectlyRounded c (units c x + units c y) (response c (.add x y))

/-- R188 with R172 to R175: on finite operands the answer is an infinity exactly when the sum, rounded in the policy's
direction with an unbounded exponent, lies beyond the largest finite value; its sign is that of the sum. -/
def Obligations.AddOverflowsToInfinityBeyondTheLargestFinite : Prop :=
  ∀ (c : Cfg) (x y : Nat), Fits x c.W → Fits y c.W → FinitePattern c x → FinitePattern c y →
    (InfPattern c (response c (.add x y)) ↔
      match c.rm with
      | .rne => 2 * maxFiniteUnits c + 2 ^ (2 ^ c.E - 3) ≤ 2 * |units c x + units c y|
      | .rdn => maxFiniteUnits c + 2 ^ (2 ^ c.E - 3) ≤ units c x + units c y ∨ units c x + units c y < -maxFiniteUnits c
      | .rup => maxFiniteUnits c < units c x + units c y ∨ units c x + units c y ≤ -(maxFiniteUnits c + 2 ^ (2 ^ c.E - 3))
      | .rtz => maxFiniteUnits c + 2 ^ (2 ^ c.E - 3) ≤ |units c x + units c y|) ∧
    (InfPattern c (response c (.add x y)) →
      (signField c (response c (.add x y)) = 1 ↔ units c x + units c y < 0))

/-- R203: whatever the policies, the answers differ at most as a pattern and its successor in magnitude (the largest
finite value and infinity among them); NaN and infinite operands and a zero sum leave no difference, nor does an operand
of a predicate. -/
def Obligations.PoliciesDifferByAtMostOneUnit : Prop :=
  ∀ (c : Cfg) (rm : RoundingPolicy) (x y : Nat), Fits x c.W → Fits y c.W →
    (response { c with rm := rm } (.add x y) = response { c with rm := .rtz } (.add x y) ∨
      (FinitePattern c x ∧ FinitePattern c y ∧ units c x + units c y ≠ 0 ∧
        response { c with rm := rm } (.add x y) = response { c with rm := .rtz } (.add x y) + 1)) ∧
    response { c with rm := rm } (.isNan x) = response c (.isNan x) ∧
    response { c with rm := rm } (.isInf x) = response c (.isInf x) ∧
    response { c with rm := rm } (.isSubnormal x) = response c (.isSubnormal x)

/-- A sum that is itself the value of a finite pattern is answered with that value under every policy (R182, R201). -/
def Obligations.AddOfRepresentableSumIsExact : Prop :=
  ∀ (c : Cfg) (x y v : Nat), Fits x c.W → Fits y c.W → Fits v c.W →
    FinitePattern c x → FinitePattern c y → FinitePattern c v → units c x + units c y = units c v →
    FinitePattern c (response c (.add x y)) ∧ units c (response c (.add x y)) = units c v

-- Aligner -------------------------------------------------------------------------------------------------------------

/-- R144: the clamp at `P + 2` is exact: every longer shift leaves the sticky bit alone. -/
def Obligations.ShiftClampIsExact : Prop :=
  ∀ (c : Cfg) (m n : Nat), m < 2 ^ (c.P + 3) → c.P + 2 ≤ n →
    srs m n = srs m (c.P + 2) ∧ srs m n = if m = 0 then 0 else 1

/-- R145: the post-condition of the Aligner. -/
def Obligations.AlignerEqualisesExponents : Prop :=
  ∀ (c : Cfg) (x y : Fields), x.isFinite c → y.isFinite c →
    (align c x y).xExponent = (align c x y).yExponent ∧
    (align c x y).xExponent = (max (effectiveExponent x.exponent) (effectiveExponent y.exponent) : Nat) ∧
    1 ≤ (align c x y).xExponent ∧ (align c x y).xExponent ≤ 2 ^ c.E - 2 ∧
    (align c x y).xMantissa < 2 ^ (c.P + 3) ∧ (align c x y).yMantissa < 2 ^ (c.P + 3) ∧
    ((align c x y).xMantissa % 8 = 0 ∨ (align c x y).yMantissa % 8 = 0) ∧
    (effectiveExponent y.exponent ≤ effectiveExponent x.exponent →
      (align c x y).xMantissa = extendedMantissa c x ∧ (x.exponent ≠ 0 → (align c x y).xMantissa.testBit (c.P + 2) = true)) ∧
    (effectiveExponent x.exponent ≤ effectiveExponent y.exponent →
      (align c x y).yMantissa = extendedMantissa c y ∧ (y.exponent ≠ 0 → (align c x y).yMantissa.testBit (c.P + 2) = true))

-- Combiner and Normalizer ---------------------------------------------------------------------------------------------

/-- R157: the overflow bit is set only after an addition, and the carry-out shift then leaves a normalised mantissa, on
which the loop does nothing, at an exponent of at most `2^E - 1`. -/
def Obligations.CarryOutLeavesNormalisedMantissa : Prop :=
  ∀ (c : Cfg) (x y : Fields) (sub : Bool), x.isFinite c → y.isFinite c →
    (combine sub (align c x y).xMantissa (align c x y).yMantissa).natAbs.testBit (c.P + 3) = true →
    sub = false ∧
    2 ^ (c.P + 2) ≤ carryMantissa c (combine sub (align c x y).xMantissa (align c x y).yMantissa).natAbs ∧
    carryMantissa c (combine sub (align c x y).xMantissa (align c x y).yMantissa).natAbs < 2 ^ (c.P + 3) ∧
    carryExponent c (combine sub (align c x y).xMantissa (align c x y).yMantissa).natAbs (align c x y).xExponent ≤ 2 ^ c.E - 1 ∧
    ∀ (fuel : Nat) (e : Int),
      normLoop c fuel (carryMantissa c (combine sub (align c x y).xMantissa (align c x y).yMantissa).natAbs) e =
        (carryMantissa c (combine sub (align c x y).xMantissa (align c x y).yMantissa).natAbs, e)

/-- R160: the loop and the leading-zero count give the same mantissa and exponent, for every mantissa that can enter the
loop. -/
def Obligations.NormalisationLoopIsOneShift : Prop :=
  ∀ (c : Cfg) (m : Nat) (e : Int), 0 < m → m < 2 ^ (c.P + 3) → normLoop c (normFuel c) m e = normOnce c m e

/-- R159: from two finite operands the loop runs at most `P` times. -/
def Obligations.NormalisationShiftsAtMostP : Prop :=
  ∀ (c : Cfg) (x y : Fields) (sub : Bool), x.isFinite c → y.isFinite c →
    combine sub (align c x y).xMantissa (align c x y).yMantissa ≠ 0 →
    c.P + 2 - (carryMantissa c (combine sub (align c x y).xMantissa (align c x y).yMantissa).natAbs).log2 ≤ c.P

/-- R161: the post-condition of the stage. `A` is the exact magnitude of the sum in units of bit 0 at the normalised
exponent: the mantissa and guard bits are those of `A` truncated, round or sticky is set exactly when something lies
below the guard bit, and with no set bit dropped, in alignment (by the unclamped distance) or in the carry-out shift, the
mantissa is `A`. R161's last sentence names alignment only; the carry-out shift can fold a set bit too (log 26). -/
def Obligations.NormalisedMantissaHoldsTheExactSum : Prop :=
  ∀ (c : Cfg) (x y : Nat) (w : Working) (A : ℚ), Fits x c.W → Fits y c.W → FinitePattern c x → FinitePattern c y →
    normalisedSum c x y = some w →
    A = |realValue c x + realValue c y| / (2 : ℚ) ^ (w.exponent - c.bias - (c.P - 1) - 3) →
    w.normalised c ∧
    (w.sign = 1 ↔ realValue c x + realValue c y < 0) ∧
    ⌊A / 4⌋ = (w.mantissa / 4 : Nat) ∧
    (w.mantissa % 4 ≠ 0 ↔ ¬ ∃ k : Int, A = 4 * k) ∧
    (extendedMantissa c (decompose c x) % 2 ^ (-shiftDistance (decompose c x) (decompose c y)).toNat = 0 →
     extendedMantissa c (decompose c y) % 2 ^ (shiftDistance (decompose c x) (decompose c y)).toNat = 0 →
     ((rawSum c x y).natAbs.testBit (c.P + 3) = true → (rawSum c x y).natAbs % 2 = 0) →
      (w.mantissa : ℚ) = A)

-- Rounder -------------------------------------------------------------------------------------------------------------

/-- R180: the truth table of `round_up`, its rows `G R S` and its columns RNE with `LSB` 0 and 1, RDN with `z_sign` 0 and
1, RUP with `z_sign` 0 and 1, RTZ. -/
def Obligations.RoundUpTruthTable : Prop :=
  ∀ (lsb : Bool) (sign : Nat), sign ≤ 1 →
    ∀ row ∈ ([((false, false, false), [false, false, false, false, false, false, false]),
              ((false, false, true), [false, false, false, true, true, false, false]),
              ((false, true, false), [false, false, false, true, true, false, false]),
              ((false, true, true), [false, false, false, true, true, false, false]),
              ((true, false, false), [false, true, false, true, true, false, false]),
              ((true, false, true), [true, true, false, true, true, false, false]),
              ((true, true, false), [true, true, false, true, true, false, false]),
              ((true, true, true), [true, true, false, true, true, false, false])] :
              List ((Bool × Bool × Bool) × List Bool)),
      [roundUp .rne sign ⟨false, row.1.1, row.1.2.1, row.1.2.2⟩, roundUp .rne sign ⟨true, row.1.1, row.1.2.1, row.1.2.2⟩,
       roundUp .rdn 0 ⟨lsb, row.1.1, row.1.2.1, row.1.2.2⟩, roundUp .rdn 1 ⟨lsb, row.1.1, row.1.2.1, row.1.2.2⟩,
       roundUp .rup 0 ⟨lsb, row.1.1, row.1.2.1, row.1.2.2⟩, roundUp .rup 1 ⟨lsb, row.1.1, row.1.2.1, row.1.2.2⟩,
       roundUp .rtz sign ⟨lsb, row.1.1, row.1.2.1, row.1.2.2⟩] = row.2

/-- R172 to R175 in terms of the dropped portion, an eighth of `z_mantissa`: more than half, or half with an odd retained
value; anything at all on the side the policy rounds away from zero; never. -/
def Obligations.RoundUpDecidesFromTheDroppedPart : Prop :=
  ∀ (sign m : Nat),
    (roundUp .rne sign (roundBits m) = true ↔ 4 < m % 8 ∨ (m % 8 = 4 ∧ (m / 8) % 2 = 1)) ∧
    (roundUp .rdn sign (roundBits m) = true ↔ sign = 1 ∧ m % 8 ≠ 0) ∧
    (roundUp .rup sign (roundBits m) = true ↔ sign = 0 ∧ m % 8 ≠ 0) ∧
    roundUp .rtz sign (roundBits m) = false

/-- R179, the invariant of R212: after the Rounder the implied bit is set, under every policy. -/
def Obligations.RounderLeavesImpliedBitSet : Prop :=
  ∀ (c : Cfg) (w : Working), w.normalised c → (roundStage c w).final c

/-- R178: a rounding carry happens only on a round up of a mantissa of all ones, and leaves the implicit bit alone at the
next exponent. -/
def Obligations.RoundingCarryEntersTheNextBinade : Prop :=
  ∀ (c : Cfg) (w : Working), w.normalised c →
    ((roundIncrement c w >>> 3).testBit c.P = true ↔
      roundUp c.rm w.sign (roundBits w.mantissa) = true ∧ w.mantissa / 8 = 2 ^ c.P - 1) ∧
    ((roundIncrement c w >>> 3).testBit c.P = true →
      roundStage c w = { sign := w.sign, exponent := w.exponent + 1, mantissa := 2 ^ (c.P - 1) }) ∧
    ((roundIncrement c w >>> 3).testBit c.P = false →
      roundStage c w = { sign := w.sign, exponent := w.exponent, mantissa := roundIncrement c w / 8 })

-- Final assembly ------------------------------------------------------------------------------------------------------

/-- R192: the three ranges, in plain arithmetic: no field is truncated, and only the storable range drops the implicit
bit. -/
def Obligations.AssemblyPacksInThreeRanges : Prop :=
  ∀ (c : Cfg) (w : Working), w.final c →
    (2 ^ c.E - 1 ≤ w.exponent → assemble c w = w.sign * 2 ^ (c.W - 1) + (2 ^ c.E - 1) * 2 ^ (c.P - 1)) ∧
    (1 ≤ w.exponent → w.exponent < 2 ^ c.E - 1 →
      assemble c w = w.sign * 2 ^ (c.W - 1) + w.exponent.toNat * 2 ^ (c.P - 1) + (w.mantissa - 2 ^ (c.P - 1))) ∧
    (w.exponent ≤ 0 → assemble c w = w.sign * 2 ^ (c.W - 1) + w.mantissa / 2 ^ (1 - w.exponent).toNat)

/-- R187: below overflow the packed result has the value `(-1)^z_sign * m * 2^(z_exponent - bias - (P - 1))`, provided
the denormalising shift drops only zeros, which R191 says it always does. -/
def Obligations.AssemblyKeepsTheValue : Prop :=
  ∀ (c : Cfg) (w : Working), w.final c → w.exponent < 2 ^ c.E - 1 →
    (w.exponent ≤ 0 → 2 ^ (1 - w.exponent).toNat ∣ w.mantissa) →
    Fits (assemble c w) c.W ∧ FinitePattern c (assemble c w) ∧
    realValue c (assemble c w) = signFactor w.sign * w.mantissa * (2 : ℚ) ^ (w.exponent - c.bias - (c.P - 1))

/-- R191: below the normal range nothing is rounded and the denormalising shift is exact. -/
def Obligations.SumsBelowTheNormalRangeAreExact : Prop :=
  ∀ (c : Cfg) (x y : Nat) (w : Working), Fits x c.W → Fits y c.W → FinitePattern c x → FinitePattern c y →
    normalisedSum c x y = some w → w.exponent ≤ 0 →
    w.mantissa % 8 = 0 ∧ roundUp c.rm w.sign (roundBits w.mantissa) = false ∧
    (roundStage c w).exponent = w.exponent ∧ 2 ^ (1 - w.exponent).toNat ∣ (roundStage c w).mantissa

/-- R186: the exponent handed to final assembly is at least `2 - P` and never `2^E`. -/
def Obligations.FinalExponentNeverExceedsAllOnes : Prop :=
  ∀ (c : Cfg) (x y : Nat) (w : Working), Fits x c.W → Fits y c.W → FinitePattern c x → FinitePattern c y →
    normalisedSum c x y = some w →
    2 - (c.P : Int) ≤ (roundStage c w).exponent ∧ (roundStage c w).exponent ≤ 2 ^ c.E - 1
end

