-- ==== Sys2Proof/Laws/Format.lean ====
section
/-! SUPPORT. The bit fields, the packed format and the Classifier in plain arithmetic. -/

namespace Sys2Proof

theorem bit_eq_div_mod (v i : Nat) : bit v i = v / 2 ^ i % 2 := by rw [bit, Nat.shiftRight_eq_div_pow]

theorem bits_eq_div_mod (v hi lo : Nat) : bits v hi lo = v / 2 ^ lo % 2 ^ (hi + 1 - lo) := by
  rw [bits, Nat.shiftRight_eq_div_pow]

theorem bit_le_one (v i : Nat) : bit v i ≤ 1 := by rw [bit_eq_div_mod]; omega

theorem bits_lt (v hi lo : Nat) : bits v hi lo < 2 ^ (hi + 1 - lo) := by
  rw [bits_eq_div_mod]; exact Nat.mod_lt _ (Nat.two_pow_pos _)

/-- Concatenation: a field above a field of `n` bits. -/
theorem shiftLeft_or_eq_add {b n : Nat} (a : Nat) (h : b < 2 ^ n) : (a <<< n) ||| b = a * 2 ^ n + b := by
  rw [← Nat.shiftLeft_add_eq_or_of_lt h, Nat.shiftLeft_eq]

theorem testBit_of_lt_pow_succ {m k : Nat} (h : m < 2 ^ (k + 1)) : m.testBit k = true ↔ 2 ^ k ≤ m := by
  constructor
  · intro ht
    by_contra hlt
    rw [Nat.testBit_lt_two_pow (Nat.lt_of_not_le hlt)] at ht
    exact Bool.noConfusion ht
  · intro hle
    have h1 : m / 2 ^ k = 1 := by
      have hp := Nat.two_pow_pos k
      rw [Nat.pow_succ] at h
      exact Nat.div_eq_of_lt_le (by omega) (by omega)
    simp [Nat.testBit_eq_decide_div_mod_eq, h1]

variable (c : Cfg)

theorem Cfg.W_sub_one : c.W - 1 = c.E + (c.P - 1) := by
  have := c.two_le_P; unfold Cfg.W; omega

theorem Cfg.two_pow_W : 2 ^ c.W = 2 * (2 ^ c.E * 2 ^ (c.P - 1)) := by
  rw [← Nat.pow_add, ← c.W_sub_one, ← Nat.pow_succ']
  congr 1; have := c.two_le_P; unfold Cfg.W; omega

theorem Cfg.four_le_two_pow_E : 4 ≤ 2 ^ c.E := Nat.pow_le_pow_right (n := 2) (by omega) c.two_le_E

theorem Cfg.two_pow_P : 2 ^ c.P = 2 * 2 ^ (c.P - 1) := by
  rw [← Nat.pow_succ']; congr 1; have := c.two_le_P; omega

namespace Machine

theorem operand_lt (x : Nat) : operand c x < 2 ^ c.W := Nat.mod_lt _ (Nat.two_pow_pos _)

variable {c} in
theorem operand_of_fits {x : Nat} (h : Fits x c.W) : operand c x = x := Nat.mod_eq_of_lt h

@[simp] theorem boolWord_true : boolWord true = 1 := rfl
@[simp] theorem boolWord_false : boolWord false = 0 := rfl

/-- A predicate's answer is a word of one bit, so it fits every response port. -/
theorem boolWord_fits (b : Bool) : Fits (boolWord b) c.W := by
  have h := c.two_pow_W
  have h1 := c.four_le_two_pow_E
  have h2 := Nat.two_pow_pos (c.P - 1)
  have h3 : 4 * 1 ≤ 2 ^ c.E * 2 ^ (c.P - 1) := Nat.mul_le_mul h1 h2
  show boolWord b < 2 ^ c.W
  rw [h]
  generalize 2 ^ c.E * 2 ^ (c.P - 1) = n at h3
  cases b
  · rw [boolWord_false]; omega
  · rw [boolWord_true]; omega

theorem decompose_sign (v : Nat) : (decompose c v).sign = signField c v := bit_eq_div_mod _ _

theorem decompose_exponent (v : Nat) : (decompose c v).exponent = exponentField c v := by
  have hE := c.two_le_E; have hP := c.two_le_P
  show bits v (c.W - 2) (c.P - 1) = _
  rw [bits_eq_div_mod]
  have : c.W - 2 + 1 - (c.P - 1) = c.E := by unfold Cfg.W; omega
  rw [this]

theorem decompose_fraction (v : Nat) : (decompose c v).fraction = fractionField c v := by
  have hP := c.two_le_P
  show bits v (c.P - 2) 0 = _
  rw [bits_eq_div_mod, Nat.pow_zero, Nat.div_one]
  have : c.P - 2 + 1 - 0 = c.P - 1 := by omega
  rw [this]

theorem decompose_inRange (v : Nat) : (decompose c v).inRange c := by
  refine ⟨bit_le_one _ _, ?_, ?_⟩
  · rw [decompose_exponent]; exact Nat.mod_lt _ (Nat.two_pow_pos _)
  · rw [decompose_fraction]; exact Nat.mod_lt _ (Nat.two_pow_pos _)

/-- The operand's port carries the same fields as the number it is cut from. -/
theorem decompose_operand (x : Nat) : decompose c (operand c x) = decompose c x := by
  have hW := c.two_pow_W
  have key : ∀ a : Nat, ∀ k n : Nat, k + n ≤ c.W → a % 2 ^ c.W / 2 ^ k % 2 ^ n = a / 2 ^ k % 2 ^ n := by
    intro a k n hkn
    obtain ⟨d, hd⟩ := Nat.exists_eq_add_of_le hkn
    rw [hd, Nat.add_assoc, Nat.pow_add 2 k (n + d), Nat.mod_mul_right_div_self, Nat.pow_add,
      Nat.mod_mul_right_mod]
  have hE := c.two_le_E; have hP := c.two_le_P
  have hs := key x (c.W - 1) 1 (by unfold Cfg.W; omega)
  have he := key x (c.P - 1) c.E (by unfold Cfg.W; omega)
  have hf := key x 0 (c.P - 1) (by unfold Cfg.W; omega)
  simp only [Nat.pow_one, Nat.pow_zero, Nat.div_one] at hs hf
  have e1 : (decompose c (operand c x)).sign = (decompose c x).sign := by
    rw [decompose_sign, decompose_sign]; exact hs
  have e2 : (decompose c (operand c x)).exponent = (decompose c x).exponent := by
    rw [decompose_exponent, decompose_exponent]; exact he
  have e3 : (decompose c (operand c x)).fraction = (decompose c x).fraction := by
    rw [decompose_fraction, decompose_fraction]; exact hf
  calc decompose c (operand c x)
      = ⟨(decompose c (operand c x)).sign, (decompose c (operand c x)).exponent, (decompose c (operand c x)).fraction⟩ := rfl
    _ = decompose c x := by rw [e1, e2, e3]

/-- `compose` in plain arithmetic: each field modulo its width, packed. -/
theorem compose_eq (sg e f : Nat) :
    compose c sg e f = sg % 2 * 2 ^ (c.W - 1) + e % 2 ^ c.E * 2 ^ (c.P - 1) + f % 2 ^ (c.P - 1) := by
  have h1 : sg &&& 1 = sg % 2 := Nat.and_one_is_mod sg
  have h2 : e &&& c.exponentMask = e % 2 ^ c.E := Nat.and_two_pow_sub_one_eq_mod e c.E
  have h3 : f &&& c.fractionMask = f % 2 ^ (c.P - 1) := Nat.and_two_pow_sub_one_eq_mod f (c.P - 1)
  have hf : f % 2 ^ (c.P - 1) < 2 ^ (c.P - 1) := Nat.mod_lt _ (Nat.two_pow_pos _)
  have he : e % 2 ^ c.E < 2 ^ c.E := Nat.mod_lt _ (Nat.two_pow_pos _)
  have hef : e % 2 ^ c.E * 2 ^ (c.P - 1) + f % 2 ^ (c.P - 1) < 2 ^ (c.W - 1) := by
    rw [c.W_sub_one, Nat.pow_add]
    calc e % 2 ^ c.E * 2 ^ (c.P - 1) + f % 2 ^ (c.P - 1)
        < e % 2 ^ c.E * 2 ^ (c.P - 1) + 2 ^ (c.P - 1) := by omega
      _ = (e % 2 ^ c.E + 1) * 2 ^ (c.P - 1) := by rw [Nat.add_mul, Nat.one_mul]
      _ ≤ 2 ^ c.E * 2 ^ (c.P - 1) := Nat.mul_le_mul_right _ he
  unfold compose
  rw [h1, h2, h3, Nat.or_assoc, shiftLeft_or_eq_add _ hf, shiftLeft_or_eq_add _ hef, Nat.add_assoc]

theorem compose_fits (sg e f : Nat) : Fits (compose c sg e f) c.W := by
  have hf : f % 2 ^ (c.P - 1) < 2 ^ (c.P - 1) := Nat.mod_lt _ (Nat.two_pow_pos _)
  have he : (e % 2 ^ c.E + 1) * 2 ^ (c.P - 1) ≤ 2 ^ c.E * 2 ^ (c.P - 1) :=
    Nat.mul_le_mul_right _ (Nat.mod_lt _ (Nat.two_pow_pos _))
  have hs : sg % 2 * 2 ^ (c.W - 1) ≤ 1 * 2 ^ (c.W - 1) := Nat.mul_le_mul_right _ (by omega)
  rw [Nat.add_mul] at he
  show compose c sg e f < 2 ^ c.W
  rw [compose_eq, c.two_pow_W]
  rw [c.W_sub_one, Nat.pow_add] at hs ⊢
  generalize sg % 2 * (2 ^ c.E * 2 ^ (c.P - 1)) = a at hs ⊢
  generalize e % 2 ^ c.E * 2 ^ (c.P - 1) = b at he ⊢
  generalize 2 ^ c.E * 2 ^ (c.P - 1) = n at hs he ⊢
  omega

theorem isNan_iff (e f : Nat) : isNan c e f = true ↔ e = 2 ^ c.E - 1 ∧ f ≠ 0 := by
  simp [isNan, Cfg.expAllOnes]

theorem isInf_iff (e f : Nat) : isInf c e f = true ↔ e = 2 ^ c.E - 1 ∧ f = 0 := by
  simp [isInf, Cfg.expAllOnes]

theorem packedIsNan_iff (v : Nat) : packedIsNan c v = true ↔ NanPattern c v := by
  rw [packedIsNan, isNan_iff, decompose_exponent, decompose_fraction]

theorem packedIsInf_iff (v : Nat) : packedIsInf c v = true ↔ InfPattern c v := by
  rw [packedIsInf, isInf_iff, decompose_exponent, decompose_fraction]

theorem packedIsSubnormal_iff (v : Nat) : packedIsSubnormal c v = true ↔ exponentField c v = 0 := by
  rw [packedIsSubnormal, isSubnormal, decompose_exponent]; simp

theorem packedIsFinite_iff (v : Nat) : packedIsFinite c v = true ↔ FinitePattern c v := by
  rw [packedIsFinite, decompose_exponent]; simp [Cfg.expAllOnes]

/-- The true mantissa: the fraction, and the implicit bit for a non-zero stored exponent (R64, R114). -/
theorem trueMantissa_eq {f : Nat} (e : Nat) (hf : f < 2 ^ (c.P - 1)) :
    trueMantissa c e f = if e = 0 then f else 2 ^ (c.P - 1) + f := by
  unfold trueMantissa isSubnormal Cfg.implicitBit
  by_cases h : e = 0
  · simp [h]
  · simp only [beq_iff_eq, h, if_false]
    rw [Nat.or_comm, shiftLeft_or_eq_add _ hf, Nat.one_mul]

theorem trueMantissa_lt {f : Nat} (e : Nat) (hf : f < 2 ^ (c.P - 1)) : trueMantissa c e f < 2 ^ c.P := by
  rw [trueMantissa_eq c e hf, c.two_pow_P]; split <;> omega

end Machine
end Sys2Proof
end

