-- ==== Sys2Proof/Laws/PerInstr.lean ====
section
/-! SUPPORT. Statements made per operation. -/

namespace Sys2Proof.Laws

/-- A request word in plain arithmetic. -/
theorem requestWord_eq {W op x y : Nat} (hx : x < 2 ^ W) (hy : y < 2 ^ W) :
    requestWord W op x y = op * 2 ^ (2 * W) + x * 2 ^ W + y := by
  have hw : 2 ^ (2 * W) = 2 ^ W * 2 ^ W := by rw [Nat.two_mul, Nat.pow_add]
  have hxy : x * 2 ^ W + y < 2 ^ (2 * W) := by
    have : (x + 1) * 2 ^ W ≤ 2 ^ W * 2 ^ W := Nat.mul_le_mul_right _ hx
    rw [Nat.add_mul] at this
    rw [hw]; generalize 2 ^ W * 2 ^ W = n at *; generalize x * 2 ^ W = a at *; omega
  unfold requestWord
  rw [Nat.or_assoc, shiftLeft_or_eq_add _ hy, shiftLeft_or_eq_add _ hxy, Nat.add_assoc]

/-- A request word of the four codes has `2 + 2W` bits (R75). -/
theorem requestWord_fits {W op x y : Nat} (ho : op < 4) (hx : x < 2 ^ W) (hy : y < 2 ^ W) :
    Fits (requestWord W op x y) (2 + 2 * W) := by
  have hw : 2 ^ (2 * W) = 2 ^ W * 2 ^ W := by rw [Nat.two_mul, Nat.pow_add]
  have h1 : (x + 1) * 2 ^ W ≤ 2 ^ W * 2 ^ W := Nat.mul_le_mul_right _ hx
  have h2 : (op + 1) * 2 ^ (2 * W) ≤ 4 * 2 ^ (2 * W) := Nat.mul_le_mul_right _ ho
  rw [Nat.add_mul] at h1 h2
  show requestWord W op x y < 2 ^ (2 + 2 * W)
  rw [requestWord_eq hx hy, Nat.pow_add]
  rw [← hw] at h1
  generalize 2 ^ (2 * W) = n at *
  generalize x * 2 ^ W = a at *
  generalize op * n = b at *
  omega

namespace EncodeFits

/-- The word of a well-formed request has the one length every request has (R81). -/
def Statement (i : Instr) : Prop := ∀ W : Nat, i.wf W = true → Fits (encode W i) (2 + 2 * W)

theorem add (x y : Nat) : Statement (.add x y) := fun W h => by
  simp only [Instr.wf, Bool.and_eq_true, decide_eq_true_eq] at h
  exact requestWord_fits (by omega) h.1 h.2

theorem isNan (x : Nat) : Statement (.isNan x) := fun W h =>
  requestWord_fits (by omega) (of_decide_eq_true h) (Nat.two_pow_pos _)

theorem isInf (x : Nat) : Statement (.isInf x) := fun W h =>
  requestWord_fits (by omega) (of_decide_eq_true h) (Nat.two_pow_pos _)

theorem isSubnormal (x : Nat) : Statement (.isSubnormal x) := fun W h =>
  requestWord_fits (by omega) (of_decide_eq_true h) (Nat.two_pow_pos _)

end EncodeFits
end Sys2Proof.Laws
end

