-- ==== Sys2Proof/Laws/Stages.lean ====
section
/-! SUPPORT. What each stage of ADD can do, said once per function: the Aligner, the Combiner/Normalizer, the Rounder and
the short-circuit. -/

namespace Sys2Proof.Machine

-- Aligner

/-- The sticky right shift by whether a set bit is dropped (R16, R147). -/
theorem srs_eq (m n : Nat) : srs m n = if m % 2 ^ n = 0 then m / 2 ^ n else m / 2 ^ n ||| 1 := by
  unfold srs; rw [Nat.shiftRight_eq_div_pow]; split <;> simp

@[simp] theorem srs_zero (m : Nat) : srs m 0 = m := by simp [srs_eq, Nat.mod_one]

theorem or_one_eq (m : Nat) : m ||| 1 = m / 2 * 2 + 1 := by
  have h1 : (m ||| 1) / 2 = m / 2 := by simpa using Nat.or_div_two (a := m) (b := 1)
  have h2 : (m ||| 1) % 2 = 1 := by simp [Nat.or_mod_two_eq_one]
  omega

/-- The kept part, plus at most the sticky bit. -/
theorem srs_bounds (m n : Nat) : m / 2 ^ n ≤ srs m n ∧ srs m n ≤ m / 2 ^ n + 1 := by
  rw [srs_eq]; split
  · omega
  · rw [or_one_eq]; omega

/-- A dropped set bit makes the result odd (R147). -/
theorem srs_odd_of_dropped {m n : Nat} (h : m % 2 ^ n ≠ 0) : srs m n % 2 = 1 := by
  rw [srs_eq, if_neg h, or_one_eq]; omega

theorem srs_of_exact {m n : Nat} (h : m % 2 ^ n = 0) : srs m n = m / 2 ^ n := by rw [srs_eq, if_pos h]

theorem srs_lt {m n k : Nat} (hk : 0 < k) (h : m < 2 ^ k) : srs m n < 2 ^ k := by
  obtain ⟨j, rfl⟩ : ∃ j, k = j + 1 := ⟨k - 1, by omega⟩
  have hd : m / 2 ^ n ≤ m := Nat.div_le_self _ _
  have hp : 2 ^ (j + 1) = 2 * 2 ^ j := by rw [Nat.pow_succ']
  rw [srs_eq]; split
  · omega
  · rw [or_one_eq]; omega

theorem effectiveExponent_pos (e : Nat) : 1 ≤ effectiveExponent e := by unfold effectiveExponent; split <;> omega

theorem effectiveExponent_of_ne_zero {e : Nat} (h : e ≠ 0) : effectiveExponent e = e := if_neg h

/-- The extended mantissa is the true mantissa with three zero bits below it (R139). -/
theorem extendedMantissa_eq (c : Cfg) (f : Fields) :
    extendedMantissa c f = 8 * trueMantissa c f.exponent f.fraction := by
  rw [extendedMantissa, Nat.shiftLeft_eq, Nat.mul_comm]

theorem extendedMantissa_lt (c : Cfg) {f : Fields} (h : f.fraction < 2 ^ (c.P - 1)) :
    extendedMantissa c f < 2 ^ (c.P + 3) := by
  have := trueMantissa_lt c f.exponent h
  rw [extendedMantissa_eq, Nat.pow_add]; omega

theorem align_of_shift_pos (c : Cfg) {x y : Fields} (h : 0 < shiftDistance x y) :
    align c x y =
      { xMantissa := extendedMantissa c x
        yMantissa := srs (extendedMantissa c y) (min (shiftDistance x y).toNat (c.P + 2))
        xExponent := effectiveExponent x.exponent
        yExponent := effectiveExponent x.exponent } := if_pos h

theorem align_of_shift_neg (c : Cfg) {x y : Fields} (h : shiftDistance x y < 0) :
    align c x y =
      { xMantissa := srs (extendedMantissa c x) (min (-shiftDistance x y).toNat (c.P + 2))
        yMantissa := extendedMantissa c y
        xExponent := effectiveExponent y.exponent
        yExponent := effectiveExponent y.exponent } := by
  unfold align; rw [if_neg (by omega), if_pos h]

theorem align_of_shift_zero (c : Cfg) {x y : Fields} (h : shiftDistance x y = 0) :
    align c x y =
      { xMantissa := extendedMantissa c x
        yMantissa := extendedMantissa c y
        xExponent := effectiveExponent x.exponent
        yExponent := effectiveExponent y.exponent } := by
  unfold align; rw [if_neg (by omega), if_neg (by omega)]

theorem shiftDistance_swap (x y : Fields) : shiftDistance y x = -shiftDistance x y := by
  unfold shiftDistance; omega

-- Combiner and Normalizer

theorem combine_true (a b : Nat) : combine true a b = (a : Int) - b := rfl
theorem combine_false (a b : Nat) : combine false a b = (a : Int) + b := rfl

/-- The carry-out shift is the sticky right shift by one (R156). -/
theorem carryMantissa_eq (c : Cfg) (m : Nat) : carryMantissa c m = if m.testBit (c.P + 3) then srs m 1 else m := by
  unfold carryMantissa; split
  · rw [srs_eq, Nat.shiftRight_eq_div_pow, Nat.and_one_is_mod, Nat.pow_one]
    rcases Nat.mod_two_eq_zero_or_one m with h | h <;> simp [h]
  · rfl

/-- Everything the normalisation loop can do: `k` left shifts, `k` at most the fuel, the implied-bit position clear before
each and set after the last unless the fuel ran out. -/
theorem normLoop_spec (c : Cfg) (fuel m : Nat) (e : Int) :
    ∃ k, k ≤ fuel ∧ normLoop c fuel m e = (m * 2 ^ k, e - k) ∧
      (∀ j, j < k → (m * 2 ^ j).testBit (c.P + 2) = false) ∧
      (k < fuel → (m * 2 ^ k).testBit (c.P + 2) = true) := by
  induction fuel generalizing m e with
  | zero => exact ⟨0, Nat.le_refl _, by simp [normLoop], by simp, by simp⟩
  | succ n ih =>
    by_cases hb : m.testBit (c.P + 2) = true
    · exact ⟨0, Nat.zero_le _, by simp [normLoop, hb], by simp, by simpa using hb⟩
    · obtain ⟨k, hk, heq, hlo, hhi⟩ := ih (m <<< 1) (e - 1)
      have hs : ∀ j, m <<< 1 * 2 ^ j = m * 2 ^ (j + 1) := by
        intro j; rw [Nat.shiftLeft_eq, Nat.pow_succ 2 j, Nat.pow_one]; ring
      refine ⟨k + 1, by omega, ?_, ?_, ?_⟩
      · rw [normLoop, if_neg hb, heq, hs]; congr 1; push_cast; ring
      · intro j hj
        cases j with
        | zero => simpa using hb
        | succ j => rw [← hs]; exact hlo j (by omega)
      · intro h; rw [← hs]; exact hhi (by omega)

theorem combineNormalize_eq_none {c : Cfg} {xs ys : Nat} {a : Aligned} :
    combineNormalize c xs ys a = none ↔ combine (subtracts xs ys) a.xMantissa a.yMantissa = 0 := by
  unfold combineNormalize; simp only; split <;> simp_all

/-- What the stage answers when the raw sum is not zero. -/
theorem combineNormalize_eq_some {c : Cfg} {xs ys : Nat} {a : Aligned} {w : Working}
    (h : combineNormalize c xs ys a = some w) :
    combine (subtracts xs ys) a.xMantissa a.yMantissa ≠ 0 ∧
    w.sign = resultSign xs (combine (subtracts xs ys) a.xMantissa a.yMantissa) ∧
    (w.mantissa, w.exponent) = normLoop c (normFuel c)
      (carryMantissa c (combine (subtracts xs ys) a.xMantissa a.yMantissa).natAbs)
      (carryExponent c (combine (subtracts xs ys) a.xMantissa a.yMantissa).natAbs a.xExponent) := by
  unfold combineNormalize at h
  simp only at h
  split at h
  · cases h
  · next hne => cases h; exact ⟨hne, rfl, rfl⟩

-- Rounder

/-- The four low bits of an extended mantissa, in arithmetic (R65). -/
theorem roundBits_eq (m : Nat) :
    roundBits m = ⟨decide (m / 8 % 2 = 1), decide (m / 4 % 2 = 1), decide (m / 2 % 2 = 1), decide (m % 2 = 1)⟩ := by
  simp [roundBits, Nat.testBit_eq_decide_div_mod_eq]

theorem roundIncrement_cases (c : Cfg) (w : Working) :
    (roundUp c.rm w.sign (roundBits w.mantissa) = true ∧ roundIncrement c w = w.mantissa + 8) ∨
    (roundUp c.rm w.sign (roundBits w.mantissa) = false ∧ roundIncrement c w = w.mantissa) := by
  unfold roundIncrement
  cases h : roundUp c.rm w.sign (roundBits w.mantissa) <;> simp

@[simp] theorem roundStage_sign (c : Cfg) (w : Working) : (roundStage c w).sign = w.sign := by
  unfold roundStage; split <;> rfl

/-- An exact mantissa is not rounded, whatever the policy (R203). -/
theorem roundUp_of_exact {m : Nat} (rm : RoundingPolicy) (sign : Nat) (h : m % 8 = 0) :
    roundUp rm sign (roundBits m) = false := by
  have h2 : m / 4 % 2 = 0 := by omega
  have h3 : m / 2 % 2 = 0 := by omega
  have h4 : m % 2 = 0 := by omega
  rw [roundBits_eq]
  cases rm <;> simp [roundUp, h2, h3, h4]

-- Composer

theorem assemble_fits (c : Cfg) (w : Working) : Fits (assemble c w) c.W := by
  unfold assemble; repeat' split
  all_goals exact compose_fits _ _ _ _

theorem canonNan_eq (c : Cfg) : canonNan c = (2 ^ c.E - 1) * 2 ^ (c.P - 1) + 1 := by
  have h1 := c.four_le_two_pow_E
  have h2 : 2 * 2 ^ (c.P - 2) = 2 ^ (c.P - 1) := by
    rw [← Nat.pow_succ']; congr 1; have := c.two_le_P; omega
  have h3 := Nat.two_pow_pos (c.P - 2)
  unfold canonNan Cfg.expAllOnes
  rw [compose_eq, Nat.mod_eq_of_lt (by omega : 2 ^ c.E - 1 < 2 ^ c.E), Nat.mod_eq_of_lt (by omega : 1 < 2 ^ (c.P - 1))]
  simp

/-- Everything the short-circuit can answer (R125 to R131). -/
theorem shortCircuit_cases (c : Cfg) (x y : Nat) :
    ((NanPattern c x ∨ NanPattern c y) ∧ shortCircuit c x y = some (canonNan c)) ∨
    (InfPattern c x ∧ InfPattern c y ∧ signField c x = signField c y ∧ shortCircuit c x y = some x) ∨
    (InfPattern c x ∧ InfPattern c y ∧ signField c x ≠ signField c y ∧ shortCircuit c x y = some (canonNan c)) ∨
    (InfPattern c x ∧ FinitePattern c y ∧ shortCircuit c x y = some x) ∨
    (FinitePattern c x ∧ InfPattern c y ∧ shortCircuit c x y = some y) ∨
    (FinitePattern c x ∧ FinitePattern c y ∧ shortCircuit c x y = none) := by
  have hx := packedIsNan_iff c x; have hy := packedIsNan_iff c y
  have ix := packedIsInf_iff c x; have iy := packedIsInf_iff c y
  rw [← decompose_sign, ← decompose_sign]
  unfold shortCircuit
  by_cases ex : exponentField c x = 2 ^ c.E - 1 <;> by_cases fx : fractionField c x = 0 <;>
    by_cases ey : exponentField c y = 2 ^ c.E - 1 <;> by_cases fy : fractionField c y = 0 <;>
    by_cases sg : (decompose c x).sign = (decompose c y).sign <;>
    simp_all [NanPattern, InfPattern, FinitePattern]

theorem addPacked_of_shortCircuit {c : Cfg} {x y z : Nat} (h : shortCircuit c x y = some z) : addPacked c x y = z := by
  unfold addPacked; rw [h]

theorem addPacked_of_finite {c : Cfg} {x y : Nat} (h : shortCircuit c x y = none) :
    addPacked c x y = addFinite c (decompose c x) (decompose c y) := by
  unfold addPacked; rw [h]

end Sys2Proof.Machine
end

