-- ==== Sys2Proof/Laws/State.lean ====
section
/-! SUPPORT. One lemma per field per update of State, and the port invariant under every operation on the ports. -/

namespace Sys2Proof.Machine

variable (s : State) (r w : Nat) (a : Bool) (c : Cfg) (nbits : Nat)

@[simp] theorem ofCfg_cfg : (State.ofCfg c).cfg = c := rfl
@[simp] theorem ofCfg_requests : (State.ofCfg c).requests = [] := rfl
@[simp] theorem ofCfg_responses : (State.ofCfg c).responses = [] := rfl
@[simp] theorem ofCfg_resetInput : (State.ofCfg c).resetInput = false := rfl

@[simp] theorem respond_cfg : (s.respond r).cfg = s.cfg := rfl
@[simp] theorem respond_requests : (s.respond r).requests = s.requests := rfl
@[simp] theorem respond_responses : (s.respond r).responses = s.responses ++ [r] := rfl
@[simp] theorem respond_resetInput : (s.respond r).resetInput = s.resetInput := rfl

@[simp] theorem clear_cfg : s.clear.cfg = s.cfg := rfl
@[simp] theorem clear_requests : s.clear.requests = [] := rfl
@[simp] theorem clear_responses : s.clear.responses = [] := rfl
@[simp] theorem clear_resetInput : s.clear.resetInput = s.resetInput := rfl

@[simp] theorem present_cfg : (s.present w).cfg = s.cfg := by unfold State.present; split <;> rfl
@[simp] theorem present_responses : (s.present w).responses = s.responses := by unfold State.present; split <;> rfl
@[simp] theorem present_resetInput : (s.present w).resetInput = s.resetInput := by unfold State.present; split <;> rfl
@[simp] theorem present_requests :
    (s.present w).requests = if s.resetInput then s.requests else s.requests ++ [w] := by
  unfold State.present; split <;> rfl

@[simp] theorem driveReset_cfg : (s.driveReset a).cfg = s.cfg := by unfold State.driveReset; split <;> rfl
@[simp] theorem driveReset_requests : (s.driveReset a).requests = if a then [] else s.requests := by
  unfold State.driveReset; split <;> rfl
@[simp] theorem driveReset_responses : (s.driveReset a).responses = if a then [] else s.responses := by
  unfold State.driveReset; split <;> rfl
@[simp] theorem driveReset_resetInput : (s.driveReset a).resetInput = a := by
  unfold State.driveReset; cases a <;> rfl

@[simp] theorem withFetchWord_cfg : (s.withFetchWord nbits w).cfg = s.cfg := rfl
@[simp] theorem withFetchWord_requests : (s.withFetchWord nbits w).requests = (w % 2 ^ nbits) :: s.requests := rfl
@[simp] theorem withFetchWord_responses : (s.withFetchWord nbits w).responses = s.responses := rfl
@[simp] theorem withFetchWord_resetInput : (s.withFetchWord nbits w).resetInput = false := rfl

variable {s s' : State} {r w : Nat}

/-- `fetch` accepts the oldest request and changes nothing else. -/
theorem fetch_eq_some (h : fetch s = some (w, s')) :
    ∃ rest, s.requests = w :: rest ∧ s' = { s with requests := rest } := by
  cases hq : s.requests with
  | nil => simp [fetch, hq] at h
  | cons v rest =>
    simp only [fetch, hq, Option.some.injEq, Prod.mk.injEq] at h
    exact ⟨rest, by rw [h.1], h.2.symm⟩

theorem fetch_eq_none : fetch s = none ↔ s.requests = [] := by
  cases hq : s.requests <;> simp [fetch, hq]

/-- `takeResponse` removes the oldest response and changes nothing else. -/
theorem takeResponse_eq_some (h : s.takeResponse = some (r, s')) :
    ∃ rest, s.responses = r :: rest ∧ s' = { s with responses := rest } := by
  cases hq : s.responses with
  | nil => simp [State.takeResponse, hq] at h
  | cons v rest =>
    simp only [State.takeResponse, hq, Option.some.injEq, Prod.mk.injEq] at h
    exact ⟨rest, by rw [h.1], h.2.symm⟩

/-- Everything a step can do when it answers a next state. -/
theorem step_cases (h : step s = .next s') :
    (s.resetInput = true ∧ s' = s.clear) ∨
    (s.resetInput = false ∧ s.requests = [] ∧ s' = s) ∨
    (s.resetInput = false ∧ ∃ w rest i, s.requests = w :: rest ∧ decode s.cfg.W w = .ok i ∧
      exec i { s with requests := rest } = .next s') := by
  unfold step at h
  split at h
  next hr => exact .inl ⟨hr, (Host.Outcome.next.inj h).symm⟩
  next hr =>
    rw [Bool.not_eq_true] at hr
    split at h
    next hf => exact .inr (.inl ⟨hr, fetch_eq_none.1 hf, (Host.Outcome.next.inj h).symm⟩)
    next v t hf =>
      obtain ⟨rest, hq, rfl⟩ := fetch_eq_some hf
      split at h
      next i hd => exact .inr (.inr ⟨hr, v, rest, i, hq, hd, h⟩)
      next => cases h

theorem ofCfg_inv : (State.ofCfg c).Inv := ⟨by simp, by simp⟩

theorem respond_inv (h : s.Inv) (hr : Fits r s.cfg.W) : (s.respond r).Inv :=
  ⟨h.1, fun q hq => by
    rcases List.mem_append.1 hq with hq | hq
    · exact h.2 q hq
    · rw [List.mem_singleton.1 hq]; exact hr⟩

theorem clear_inv : s.clear.Inv := ⟨by simp, by simp⟩

theorem fetch_inv (h : s.Inv) (hf : fetch s = some (w, s')) : Fits w (2 + 2 * s.cfg.W) ∧ s'.Inv := by
  obtain ⟨rest, hq, rfl⟩ := fetch_eq_some hf
  exact ⟨h.1 w (by simp [hq]), fun v hv => h.1 v (by simp [hq, hv]), h.2⟩

theorem present_inv (h : s.Inv) (hw : Fits w (2 + 2 * s.cfg.W)) : (s.present w).Inv := by
  refine ⟨fun v hv => ?_, by simpa using h.2⟩
  rw [present_cfg]
  rw [present_requests] at hv
  split at hv
  · exact h.1 v hv
  · rcases List.mem_append.1 hv with hv | hv
    · exact h.1 v hv
    · rw [List.mem_singleton.1 hv]; exact hw

theorem takeResponse_inv (h : s.Inv) (ht : s.takeResponse = some (r, s')) : Fits r s.cfg.W ∧ s'.Inv := by
  obtain ⟨rest, hq, rfl⟩ := takeResponse_eq_some ht
  exact ⟨h.2 r (by simp [hq]), h.1, fun v hv => h.2 v (by simp [hq, hv])⟩

theorem driveReset_inv (h : s.Inv) : (s.driveReset a).Inv := by
  cases a
  · exact h
  · exact ⟨by simp, by simp⟩

end Sys2Proof.Machine
end

