-- ==== Sys2Proof/Tests/Slice0.lean ====
section
/-! SUPPORT. Tests of the model, their expected results from spec/95_test_vectors.md, and for every statement with
hypotheses a concrete case that meets them together. -/

namespace Sys2Proof.Tests

open Sys2Proof Sys2Proof.Machine

/-- The reference configuration under a policy named in the test. -/
def ref (rm : RoundingPolicy) : Cfg := Cfg.reference rm

/-- An instance with the given words on its request port. -/
def st (rm : RoundingPolicy) (requests : List Nat) : State := { State.ofCfg (ref rm) with requests := requests }

/-- The responses of an outcome. -/
def answers : Host.Outcome State Fault Refusal → Option (List Nat)
  | .next s => some s.responses
  | .fault _ => none
  | .refused _ => none

-- WellFormed: each operand check refuses an operand of W + 1 bits ------------------------------------------------------

theorem test_wf_add : (Instr.add 0xFFFFFFFF 0xFFFFFFFF).wf 32 = true := by decide
theorem test_wf_add_x : (Instr.add 0x100000000 0).wf 32 = false := by decide
theorem test_wf_add_y : (Instr.add 0 0x100000000).wf 32 = false := by decide
theorem test_wf_isNan : (Instr.isNan 0x100000000).wf 32 = false := by decide
theorem test_wf_isInf : (Instr.isInf 0x100000000).wf 32 = false := by decide
theorem test_wf_isSubnormal : (Instr.isSubnormal 0x100000000).wf 32 = false := by decide

-- Decode: words written out bit by bit from R75 (op, 32 bits of x, 32 bits of y) ---------------------------------------

theorem test_decode_add :
    decodeTableWord 72 0b000011111110000000000000000000000001000000000000000000000000000000
      = some (.add 0x3F800000 0x40000000) := by decide
theorem test_decode_isNan :
    decodeTableWord 72 0b010111111110000000000000000000000100000000000000000000000000000000
      = some (.isNan 0x7F800001) := by decide
theorem test_decode_isInf :
    decodeTableWord 72 0b101111111110000000000000000000000011111111111111111111111111111111
      = some (.isInf 0xFF800000) := by decide
theorem test_decode_isSubnormal :
    decodeTableWord 72 0b110000000001111111111111111111111100000000000000000000000000000001
      = some (.isSubnormal 0x007FFFFF) := by decide
theorem test_decode_too_wide : decodeTableWord 72 0x40000000000000000 = none := by decide
theorem test_encode_add : encode 32 (.add 0xBF800000 0xB3800001) = 0x0BF800000B3800001 := by decide
theorem test_make_malformed : Cfg.make 1 24 0 = none ∧ Cfg.make 8 1 0 = none ∧ Cfg.make 8 24 4 = none := by decide

-- Operations: one step each --------------------------------------------------------------------------------------------

theorem test_add_tie_rne :
    answers (exec (.add 0x3F800001 0x33800000) (st .rne [])) = some [0x3F800002] := by decide
theorem test_add_subtract_rdn :
    answers (exec (.add 0x3F800000 0x80000001) (st .rdn [])) = some [0x3F7FFFFF] := by decide
theorem test_isNan_negative : answers (exec (.isNan 0xFF800001) (st .rne [])) = some [1] := by decide
theorem test_isNan_infinity : answers (exec (.isNan 0x7F800000) (st .rne [])) = some [0] := by decide
theorem test_isInf_negative : answers (exec (.isInf 0xFF800000) (st .rne [])) = some [1] := by decide
theorem test_isInf_nan : answers (exec (.isInf 0x7F800001) (st .rne [])) = some [0] := by decide
theorem test_isSubnormal_zero : answers (exec (.isSubnormal 0x80000000) (st .rne [])) = some [1] := by decide
theorem test_isSubnormal_normal : answers (exec (.isSubnormal 0x00800000) (st .rne [])) = some [0] := by decide
theorem test_step_from_reset :
    answers (step (State.reset.withFetchWord 72 0x17F80000100000000)) = some [1] := by decide

-- Stages ---------------------------------------------------------------------------------------------------------------

theorem test_decompose : decompose (ref .rne) 0xC0490FDB = ⟨1, 0x80, 0x490FDB⟩ := by decide
theorem test_compose_masks : compose (ref .rne) 3 0x1FF 0xFFFFFF = 0xFFFFFFFF := by decide
theorem test_srs_sticky : srs 0x4000008 5 = 0x200001 := by decide
theorem test_align_clamp :
    align (ref .rne) (decompose (ref .rne) 0x7F7FFFFF) (decompose (ref .rne) 0x00000001)
      = ⟨0x7FFFFF8, 1, 254, 254⟩ := by decide
theorem test_carry_out_folds_sticky :
    normalisedSum (ref .rne) 0x3FFFFFFF 0x3DFFFFFF = some ⟨0, 128, 0x43FFFFB⟩ := by decide
theorem test_longest_normalisation :
    normalisedSum (ref .rne) 0x3F800000 0xBF7FFFFF = some ⟨0, 103, 0x4000000⟩ := by decide
theorem test_rounding_carry : roundStage (ref .rne) ⟨0, 127, 0x7FFFFFC⟩ = ⟨0, 128, 0x800000⟩ := by decide
theorem test_assemble_denormalises : assemble (ref .rne) ⟨1, -21, 0xC00000⟩ = 0x80000003 := by decide
theorem test_assemble_overflows : assemble (ref .rtz) ⟨1, 255, 0x800000⟩ = 0xFF800000 := by decide

-- Witnesses: the hypotheses of each statement are met -------------------------------------------------------------------

/-- Operands at both ends of their range. -/
theorem witness_request_word_fields : Fits 0xFFFFFFFF (ref .rne).W ∧ Fits 0 (ref .rne).W := by decide

theorem witness_decoder_total : Fits 0x3FFFFFFFFFFFFFFFF (2 + 2 * (ref .rne).W) := by decide

theorem witness_decode_of_encode :
    (Instr.add 0xFFFFFFFF 0xFFFFFFFF).wf (ref .rne).W = true ∧ (Instr.isNan 0xFFFFFFFF).wf (ref .rne).W = true ∧
    (Instr.isInf 0xFFFFFFFF).wf (ref .rne).W = true ∧ (Instr.isSubnormal 0xFFFFFFFF).wf (ref .rne).W = true := by decide

/-- An ADD word and a unary word with a non-zero `y` field: the two clauses of the statement. -/
theorem witness_encode_of_decode :
    decode (ref .rne).W 0x0FFFFFFFFFFFFFFFF = .ok (.add 0xFFFFFFFF 0xFFFFFFFF) ∧
    decode (ref .rne).W 0x10000000000000001 = .ok (.isNan 0) := ⟨rfl, rfl⟩

theorem witness_configuration_made : Cfg.make 2 2 3 = some ⟨2, 2, .rtz, by decide, by decide⟩ := by decide

theorem witness_step_request :
    (st .rne [0x07F800000FF800000]).resetInput = false ∧
    (st .rne [0x07F800000FF800000]).requests = [0x07F800000FF800000] ∧
    decode (st .rne []).cfg.W 0x07F800000FF800000 = .ok (.add 0x7F800000 0xFF800000) := ⟨rfl, rfl, rfl⟩

theorem witness_step_not_a_request :
    (st .rne [0x40000000000000000]).resetInput = false ∧ ¬ Fits 0x40000000000000000 (2 + 2 * (st .rne []).cfg.W) := by decide

theorem witness_step_withFetchWord :
    decode (st .rne []).cfg.W (0x07F800000FF800000 % 2 ^ 72) = .ok (.add 0x7F800000 0xFF800000) := rfl

theorem witness_step_idle : (st .rne []).resetInput = false ∧ (st .rne []).requests = [] := by decide

/-- Two states of one configuration with different ports, and the next state of each. -/
theorem witness_response_independent :
    (st .rup []).cfg = ((st .rup [5]).respond 7).cfg ∧
    (∃ s', exec (.add 1 2) (st .rup []) = .next s') ∧ (∃ t', exec (.add 1 2) ((st .rup [5]).respond 7) = .next t') :=
  ⟨rfl, ⟨_, rfl⟩, ⟨_, rfl⟩⟩

theorem witness_inv_and_step :
    (st .rup [0x3FFFFFFFFFFFFFFFF]).Inv ∧ ∃ s', step (st .rup [0x3FFFFFFFFFFFFFFFF]) = .next s' := ⟨by decide, _, rfl⟩

/-- The greatest request word of the reference configuration, alone and behind another. -/
theorem witness_step_answers :
    (st .rup [0x3FFFFFFFFFFFFFFFF]).Inv ∧ (st .rup [0x3FFFFFFFFFFFFFFFF, 0]).Inv ∧
    (st .rup [0x3FFFFFFFFFFFFFFFF, 0]).resetInput = false ∧
    (st .rup [0x3FFFFFFFFFFFFFFFF, 0]).requests = 0x3FFFFFFFFFFFFFFFF :: [0] := by decide

theorem witness_reset_request : decode State.reset.cfg.W 0x30000000000000000 = .ok (.isSubnormal 0) := rfl

theorem witness_run :
    (st .rtz [0x03F80000033800000, 0x27F80000000000000]).Inv ∧
    (st .rtz [0x03F80000033800000, 0x27F80000000000000]).resetInput = false := by decide

theorem witness_take :
    (st .rne []).responses = [] ∧ ((st .rne []).respond 3).takeResponse = some (3, st .rne []) := by decide

/-- One pattern of each kind of special operand, at the ends of the kind's range. -/
theorem witness_nan_patterns :
    NanPattern (ref .rne) 0x7F800001 ∧ NanPattern (ref .rne) 0xFFFFFFFF := by decide

theorem witness_one_infinity :
    Fits 0xFF800000 (ref .rne).W ∧ InfPattern (ref .rne) 0xFF800000 ∧ Fits 0x7F7FFFFF (ref .rne).W ∧
    FinitePattern (ref .rne) 0x7F7FFFFF := by decide

theorem witness_two_infinities :
    Fits 0x7F800000 (ref .rne).W ∧ InfPattern (ref .rne) 0x7F800000 ∧ InfPattern (ref .rne) 0xFF800000 ∧
    signField (ref .rne) 0x7F800000 = 0 ∧ signField (ref .rne) 0xFF800000 = 1 := by decide

/-- Finite operands whose sum is zero, and the zeros and a non-zero operand of the identity. -/
theorem witness_finite_operands :
    Fits 0x00000001 (ref .rdn).W ∧ Fits 0x80000001 (ref .rdn).W ∧ FinitePattern (ref .rdn) 0x00000001 ∧
    FinitePattern (ref .rdn) 0x80000001 ∧ FinitePattern (ref .rdn) 0 ∧ FinitePattern (ref .rdn) 0x80000000 := by decide

/-- A NaN answer of infinities of opposite sign. -/
theorem witness_nan_answer :
    NanPattern (ref .rne) (response (ref .rne) (.add 0x7F800000 0xFF800000)) := by decide

/-- A finite inexact answer. -/
theorem witness_rounded_answer :
    FinitePattern (ref .rup) 0x3F800000 ∧ FinitePattern (ref .rup) 0x00000001 ∧
    FinitePattern (ref .rup) (response (ref .rup) (.add 0x3F800000 0x00000001)) := by decide

/-- An overflowing answer. -/
theorem witness_overflow :
    FinitePattern (ref .rne) 0xFF7FFFFF ∧ FinitePattern (ref .rne) 0xF3000000 ∧
    InfPattern (ref .rne) (response (ref .rne) (.add 0xFF7FFFFF 0xF3000000)) := by decide

/-- A sum that is the value of a pattern (smallest subnormal and itself). -/
theorem witness_representable_sum :
    Fits 2 (ref .rne).W ∧ FinitePattern (ref .rne) 2 ∧
    units (ref .rne) 1 + units (ref .rne) 1 = units (ref .rne) 2 := by decide

theorem witness_shift_clamp : 0x7FFFFFF < 2 ^ ((ref .rne).P + 3) ∧ (ref .rne).P + 2 ≤ 26 := by decide

/-- Finite fields whose exponents differ either way and agree. -/
theorem witness_aligner :
    (decompose (ref .rne) 0x7F7FFFFF).isFinite (ref .rne) ∧ (decompose (ref .rne) 1).isFinite (ref .rne) ∧
    effectiveExponent (decompose (ref .rne) 1).exponent ≤ effectiveExponent (decompose (ref .rne) 0x7F7FFFFF).exponent ∧
    (decompose (ref .rne) 0x7F7FFFFF).exponent ≠ 0 := by decide

theorem witness_carry_out :
    (combine false (align (ref .rne) (decompose (ref .rne) 0x3F800000) (decompose (ref .rne) 0x3F800000)).xMantissa
      (align (ref .rne) (decompose (ref .rne) 0x3F800000) (decompose (ref .rne) 0x3F800000)).yMantissa).natAbs.testBit
        ((ref .rne).P + 3) = true := by decide

theorem witness_normalisation :
    0 < 1 ∧ 1 < 2 ^ ((ref .rne).P + 3) ∧
    combine true (align (ref .rne) (decompose (ref .rne) 0x3F800000) (decompose (ref .rne) 0xBF7FFFFF)).xMantissa
      (align (ref .rne) (decompose (ref .rne) 0x3F800000) (decompose (ref .rne) 0xBF7FFFFF)).yMantissa ≠ 0 := by decide

/-- A normalised sum with no bit dropped, and one below the normal range. -/
theorem witness_normalised_sum :
    normalisedSum (ref .rne) 0x00800001 0x80800000 = some ⟨0, -22, 0x4000000⟩ ∧
    extendedMantissa (ref .rne) (decompose (ref .rne) 0x00800001) %
      2 ^ (-shiftDistance (decompose (ref .rne) 0x00800001) (decompose (ref .rne) 0x80800000)).toNat = 0 ∧
    extendedMantissa (ref .rne) (decompose (ref .rne) 0x80800000) %
      2 ^ (shiftDistance (decompose (ref .rne) 0x00800001) (decompose (ref .rne) 0x80800000)).toNat = 0 ∧
    ((rawSum (ref .rne) 0x00800001 0x80800000).natAbs.testBit ((ref .rne).P + 3) = true →
      (rawSum (ref .rne) 0x00800001 0x80800000).natAbs % 2 = 0) := by decide

theorem witness_round_up_table : (0 : Nat) ≤ 1 ∧ (1 : Nat) ≤ 1 := by decide

/-- Normalised working values with and without a rounding carry. -/
theorem witness_rounder :
    Working.normalised (ref .rne) ⟨0, 127, 0x7FFFFFC⟩ ∧
    (roundIncrement (ref .rne) ⟨0, 127, 0x7FFFFFC⟩ >>> 3).testBit (ref .rne).P = true ∧
    Working.normalised (ref .rne) ⟨1, -22, 0x4000000⟩ ∧
    (roundIncrement (ref .rne) ⟨1, -22, 0x4000000⟩ >>> 3).testBit (ref .rne).P = false := by decide

/-- Final working values in the three ranges, at their boundaries. -/
theorem witness_assembly :
    Working.final (ref .rne) ⟨0, 255, 0xFFFFFF⟩ ∧ Working.final (ref .rne) ⟨1, 254, 0xFFFFFF⟩ ∧
    Working.final (ref .rne) ⟨0, 1, 0x800000⟩ ∧ Working.final (ref .rne) ⟨0, 0, 0xFFFFFE⟩ ∧
    Working.final (ref .rne) ⟨0, -22, 0x800000⟩ ∧ 2 ^ (1 - (-22 : Int)).toNat ∣ 0x800000 := by decide

end Sys2Proof.Tests
end

/-! PROOFS. Which configurations exist (R9 of spec/00_scope.md, R73 of spec/30_encoding.md, R213 of
spec/60_exceptions.md). -/

namespace Sys2Proof

theorem RoundingPolicy.code_lt_four (rm : RoundingPolicy) : rm.code < 4 := by
  cases rm <;> decide

@[simp] theorem RoundingPolicy.ofCode?_code (rm : RoundingPolicy) : RoundingPolicy.ofCode? rm.code = some rm := by
  cases rm <;> rfl

/-- Reading a policy code inverts writing it: each policy is the answer for its own code and for no other number. -/
theorem RoundingPolicy.ofCode?_eq_some_iff {code : Nat} {rm : RoundingPolicy} :
    RoundingPolicy.ofCode? code = some rm ↔ rm.code = code := by
  constructor
  · intro h
    unfold RoundingPolicy.ofCode? at h
    split at h <;> cases h <;> rfl
  · rintro rfl
    exact RoundingPolicy.ofCode?_code rm

theorem RoundingPolicy.exists_code_eq_iff {code : Nat} : (∃ rm : RoundingPolicy, rm.code = code) ↔ code < 4 := by
  constructor
  · rintro ⟨rm, rfl⟩
    exact rm.code_lt_four
  · intro h
    interval_cases code
    exacts [⟨.rne, rfl⟩, ⟨.rdn, rfl⟩, ⟨.rup, rfl⟩, ⟨.rtz, rfl⟩]

/-- `Cfg.make` answers `c` exactly when the three numbers describe `c`; the bounds of R9 are then the ones `c` carries. -/
theorem Cfg.make_eq_some_iff {E P code : Nat} {c : Cfg} :
    Cfg.make E P code = some c ↔ c.E = E ∧ c.P = P ∧ c.rm.code = code := by
  constructor
  · intro h
    unfold Cfg.make at h
    split_ifs at h
    obtain ⟨rm, hrm, rfl⟩ := Option.map_eq_some_iff.mp h
    exact ⟨rfl, rfl, RoundingPolicy.ofCode?_eq_some_iff.mp hrm⟩
  · rintro ⟨rfl, rfl, rfl⟩
    simp [Cfg.make, c.two_le_E, c.two_le_P]

theorem Cfg.make_isSome_iff {E P code : Nat} :
    (Cfg.make E P code).isSome = true ↔ 2 ≤ E ∧ 2 ≤ P ∧ code < 4 := by
  rw [Option.isSome_iff_exists]
  constructor
  · rintro ⟨c, hc⟩
    obtain ⟨rfl, rfl, rfl⟩ := Cfg.make_eq_some_iff.mp hc
    exact ⟨c.two_le_E, c.two_le_P, c.rm.code_lt_four⟩
  · rintro ⟨hE, hP, hcode⟩
    obtain ⟨rm, hrm⟩ := RoundingPolicy.exists_code_eq_iff.mpr hcode
    exact ⟨⟨E, P, rm, hE, hP⟩, Cfg.make_eq_some_iff.mpr ⟨rfl, rfl, hrm⟩⟩

/-- Settles O6: `Cfg.make` answers exactly the configuration its arguments describe, and the arguments that describe one
are those within the bounds of R9 and R73. -/
theorem configurationIsMadeExactlyWhenWellFormed : Obligations.ConfigurationIsMadeExactlyWhenWellFormed :=
  fun _ _ _ => ⟨Cfg.make_isSome_iff, fun _ => Cfg.make_eq_some_iff.mp⟩

end Sys2Proof

/-! PROOFS. Every response is a word of `W` bits (R76, R77 of spec/30_encoding.md), and what a step keeps: the widths of
the words on the ports, `CFG` and the reset input (R23 of spec/10_state.md, R231 of spec/70_reset_and_hazards.md). -/

namespace Sys2Proof.Machine

section Widths

variable (c : Cfg)

theorem canonNan_fits : Fits (canonNan c) c.W := compose_fits c 0 c.expAllOnes 1

/-- The short-circuit answers an operand or the canonical NaN. -/
theorem shortCircuit_fits {x y z : Nat} (hx : Fits x c.W) (hy : Fits y c.W) (h : shortCircuit c x y = some z) :
    Fits z c.W := by
  rcases shortCircuit_cases c x y with
    ⟨-, hnan⟩ | ⟨-, -, -, hsame⟩ | ⟨-, -, -, hopposite⟩ | ⟨-, -, hxInf⟩ | ⟨-, -, hyInf⟩ | ⟨-, -, hnone⟩
  · exact Option.some.inj (hnan.symm.trans h) ▸ canonNan_fits c
  · exact Option.some.inj (hsame.symm.trans h) ▸ hx
  · exact Option.some.inj (hopposite.symm.trans h) ▸ canonNan_fits c
  · exact Option.some.inj (hxInf.symm.trans h) ▸ hx
  · exact Option.some.inj (hyInf.symm.trans h) ▸ hy
  · cases hnone.symm.trans h

theorem addFinite_fits (x y : Fields) : Fits (addFinite c x y) c.W := by
  unfold addFinite
  split
  · exact compose_fits c 0 0 0
  · exact assemble_fits c _

theorem addPacked_fits {x y : Nat} (hx : Fits x c.W) (hy : Fits y c.W) : Fits (addPacked c x y) c.W := by
  cases h : shortCircuit c x y with
  | none => exact addPacked_of_finite h ▸ addFinite_fits c _ _
  | some z => exact addPacked_of_shortCircuit h ▸ shortCircuit_fits c hx hy h

/-- No premise on the operands: an operation sees their low `W` bits only. -/
theorem response_fits (i : Instr) : Fits (response c i) c.W := by
  cases i with
  | add x y => exact addPacked_fits c (operand_lt c x) (operand_lt c y)
  | isNan x => exact boolWord_fits c _
  | isInf x => exact boolWord_fits c _
  | isSubnormal x => exact boolWord_fits c _

end Widths

/-- The whole effect of an operation is its response (R237). -/
theorem exec_eq_respond (i : Instr) (s : State) : exec i s = .next (s.respond (response s.cfg i)) := by
  cases i <;> rfl

variable {s s' : State}

/-- The three next states of a step: the cleared one, the same one, and the one with the oldest request answered. -/
theorem step_next_cases (h : step s = .next s') :
    s' = s.clear ∨ s' = s ∨
    ∃ w t i, fetch s = some (w, t) ∧ t.cfg = s.cfg ∧ t.resetInput = s.resetInput ∧
      s' = t.respond (response t.cfg i) := by
  rcases step_cases h with ⟨-, hclear⟩ | ⟨-, -, hidle⟩ | ⟨-, w, rest, i, hq, -, hexec⟩
  · exact .inl hclear
  · exact .inr (.inl hidle)
  · rw [exec_eq_respond] at hexec
    have hfetch : fetch s = some (w, { s with requests := rest }) := by simp [fetch, hq]
    exact .inr (.inr ⟨w, _, i, hfetch, rfl, rfl, (Host.Outcome.next.inj hexec).symm⟩)

theorem step_cfg (h : step s = .next s') : s'.cfg = s.cfg := by
  obtain rfl | rfl | ⟨w, t, i, -, hcfg, -, rfl⟩ := step_next_cases h
  · exact clear_cfg s
  · rfl
  · exact (respond_cfg t _).trans hcfg

theorem step_resetInput (h : step s = .next s') : s'.resetInput = s.resetInput := by
  obtain rfl | rfl | ⟨w, t, i, -, -, hreset, rfl⟩ := step_next_cases h
  · exact clear_resetInput s
  · rfl
  · exact (respond_resetInput t _).trans hreset

theorem step_inv (hs : s.Inv) (h : step s = .next s') : s'.Inv := by
  obtain rfl | rfl | ⟨w, t, i, hfetch, -, -, rfl⟩ := step_next_cases h
  · exact clear_inv
  · exact hs
  · exact respond_inv (fetch_inv hs hfetch).2 (response_fits t.cfg i)

/-- Settles O10, by the three next states of a step: the cleared ports are empty, an idle step changes nothing, and an
answered request leaves one word fewer on the request port and a response of `W` bits more. -/
theorem stepKeepsPortWidthsAndConfiguration : Obligations.StepKeepsPortWidthsAndConfiguration :=
  fun _ _ hs h => ⟨step_inv hs h, step_cfg h, step_resetInput h⟩

end Sys2Proof.Machine

/-! PROOFS. The order of the ports (R45, R46 of spec/20_memory.md): what a response depends on, and which response the host
takes next. -/

namespace Sys2Proof.Machine

variable {s s' : State} {q r : Nat} {rest : List Nat}

theorem exec_responses {i : Instr} (h : exec i s = .next s') : s'.responses = s.responses ++ [response s.cfg i] := by
  rw [exec_eq_respond] at h
  rw [← Host.Outcome.next.inj h, respond_responses]

/-- Settles O9: the response both states gain is `response` of their common `CFG` and the request. -/
theorem responseDependsOnRequestAndConfiguration : Obligations.ResponseDependsOnRequestAndConfiguration := by
  intro i s t s' t' hcfg hs ht
  exact ⟨response s.cfg i, exec_responses hs, hcfg ▸ exec_responses ht⟩

/-- The converse of `takeResponse_eq_some`: the oldest pending response is the one taken. -/
theorem takeResponse_of_responses_eq_cons (h : s.responses = r :: rest) :
    s.takeResponse = some (r, { s with responses := rest }) := by
  simp [State.takeResponse, h]

theorem takeResponse_respond_of_responses_eq_nil (h : s.responses = []) :
    (s.respond r).takeResponse = some (r, s) := by
  have hq : (s.respond r).responses = [r] := by simp [h]
  rw [takeResponse_of_responses_eq_cons hq, State.respond, ← h]

/-- Taking the oldest response and answering behind it can be exchanged. -/
theorem takeResponse_respond_of_takeResponse (h : s.takeResponse = some (q, s')) :
    (s.respond r).takeResponse = some (q, s'.respond r) := by
  obtain ⟨rest, hq, rfl⟩ := takeResponse_eq_some h
  have hr : (s.respond r).responses = q :: (rest ++ [r]) := by simp [hq]
  rw [takeResponse_of_responses_eq_cons hr]
  rfl

/-- Settles O15, by whether a response was pending before the one answered. -/
theorem responsesAreTakenOldestFirst : Obligations.ResponsesAreTakenOldestFirst :=
  fun _ _ => ⟨takeResponse_respond_of_responses_eq_nil, fun _ _ => takeResponse_respond_of_takeResponse⟩

end Sys2Proof.Machine

/-! PROOFS. Request words (R75, R77, R78, R81 of spec/30_encoding.md): the decoder and the encoder in terms of the three
fields `op`, `x` and `y` of a word. -/

namespace Sys2Proof

/-- The request that three fields stand for: the table of R75. -/
def Instr.ofFields (op x y : Nat) : Instr :=
  match op with
  | 0 => .add x y
  | 1 => .isNan x
  | 2 => .isInf x
  | _ => .isSubnormal x

theorem Instr.ofFields_wf {W x y : Nat} (op : Nat) (hx : Fits x W) (hy : Fits y W) :
    (Instr.ofFields op x y).wf W = true := by
  unfold Instr.ofFields
  split <;> simp [hx, hy]

/-- A word of the right length decodes to the request its fields stand for. -/
theorem decode_of_fits {W w : Nat} (hw : Fits w (2 + 2 * W)) :
    decode W w =
      .ok (Instr.ofFields (bits w (2 * W + 1) (2 * W)) (bits w (2 * W - 1) W) (bits w (W - 1) 0)) := by
  unfold decode Instr.ofFields
  rw [if_pos hw]
  generalize bits w (2 * W + 1) (2 * W) = op
  rcases op with _ | _ | _ | op <;> rfl

theorem fits_of_decode_eq_ok {W w : Nat} {i : Instr} (h : decode W w = .ok i) : Fits w (2 + 2 * W) := by
  unfold decode at h
  split at h
  · assumption
  · cases h

section WordFields

variable {W : Nat} (w : Nat)

/-- `req[2W+1 : 2W]`. -/
theorem bits_op_eq : bits w (2 * W + 1) (2 * W) = w / 2 ^ (2 * W) % 4 := by
  rw [bits_eq_div_mod, show 2 * W + 1 + 1 - 2 * W = 2 by omega, show 2 ^ 2 = 4 from rfl]

/-- `req[2W-1 : W]`. -/
theorem bits_x_eq (hW : 0 < W) : bits w (2 * W - 1) W = w / 2 ^ W % 2 ^ W := by
  rw [bits_eq_div_mod, show 2 * W - 1 + 1 - W = W by omega]

/-- `req[W-1 : 0]`. -/
theorem bits_y_eq (hW : 0 < W) : bits w (W - 1) 0 = w % 2 ^ W := by
  rw [bits_eq_div_mod, show W - 1 + 1 - 0 = W by omega, Nat.pow_zero, Nat.div_one]

end WordFields

theorem Cfg.W_pos (c : Cfg) : 0 < c.W := Nat.add_pos_left (Nat.lt_of_lt_of_le Nat.two_pos c.two_le_E) c.P

namespace Laws

section RequestWordFields

variable {W op x y : Nat}

theorem requestWord_div_two_pow_W (hx : x < 2 ^ W) (hy : y < 2 ^ W) :
    requestWord W op x y / 2 ^ W = op * 2 ^ W + x := by
  have hword : requestWord W op x y = y + 2 ^ W * (op * 2 ^ W + x) := by
    rw [requestWord_eq hx hy, Nat.two_mul, Nat.pow_add]; ring
  rw [hword, Nat.add_mul_div_left _ _ (Nat.two_pow_pos W), Nat.div_eq_of_lt hy, Nat.zero_add]

theorem requestWord_op (hx : x < 2 ^ W) (hy : y < 2 ^ W) : requestWord W op x y / 2 ^ (2 * W) = op := by
  rw [Nat.two_mul, Nat.pow_add, ← Nat.div_div_eq_div_mul, requestWord_div_two_pow_W hx hy, Nat.add_comm,
    Nat.add_mul_div_right _ _ (Nat.two_pow_pos W), Nat.div_eq_of_lt hx, Nat.zero_add]

theorem requestWord_x (hx : x < 2 ^ W) (hy : y < 2 ^ W) : requestWord W op x y / 2 ^ W % 2 ^ W = x := by
  rw [requestWord_div_two_pow_W hx hy, Nat.mul_add_mod_of_lt hx]

theorem requestWord_y (hx : x < 2 ^ W) (hy : y < 2 ^ W) : requestWord W op x y % 2 ^ W = y := by
  rw [requestWord_eq hx hy, Nat.two_mul, Nat.pow_add, ← Nat.mul_assoc, ← Nat.add_mul]
  exact Nat.mul_add_mod_of_lt hy

/-- Every word of `2 + 2W` bits is the word of its three fields. -/
theorem exists_eq_requestWord {w : Nat} (hw : Fits w (2 + 2 * W)) :
    ∃ op x y, op < 4 ∧ x < 2 ^ W ∧ y < 2 ^ W ∧ w = requestWord W op x y := by
  have hpos := Nat.two_pow_pos W
  have hx : w / 2 ^ W % 2 ^ W < 2 ^ W := Nat.mod_lt _ hpos
  have hy : w % 2 ^ W < 2 ^ W := Nat.mod_lt _ hpos
  refine ⟨w / 2 ^ (2 * W), w / 2 ^ W % 2 ^ W, w % 2 ^ W, ?_, hx, hy, ?_⟩
  · exact Nat.div_lt_of_lt_mul (by rwa [Nat.mul_comm, ← Nat.pow_add 2 2 (2 * W)])
  · rw [requestWord_eq hx hy, Nat.two_mul, Nat.pow_add, ← Nat.div_div_eq_div_mul, ← Nat.mul_assoc, ← Nat.add_mul,
      Nat.div_add_mod', Nat.div_add_mod']

/-- The decoder reads back the fields a word was made from. -/
theorem decode_requestWord (hW : 0 < W) (ho : op < 4) (hx : x < 2 ^ W) (hy : y < 2 ^ W) :
    decode W (requestWord W op x y) = .ok (Instr.ofFields op x y) := by
  rw [decode_of_fits (requestWord_fits ho hx hy), bits_op_eq, bits_x_eq _ hW, bits_y_eq _ hW, requestWord_op hx hy,
    requestWord_x hx hy, requestWord_y hx hy, Nat.mod_eq_of_lt ho]

/-- The encoder writes all three fields of an ADD and clears `y` in a unary request (log 13). -/
theorem encode_ofFields (ho : op < 4) :
    encode W (Instr.ofFields op x y) = requestWord W op x (if op = 0 then y else 0) := by
  interval_cases op <;> rfl

/-- Clearing `y` takes it off the word. -/
theorem requestWord_sub_y (hx : x < 2 ^ W) (hy : y < 2 ^ W) :
    requestWord W op x y - y = requestWord W op x 0 := by
  rw [requestWord_eq hx hy, requestWord_eq hx (Nat.two_pow_pos W), Nat.add_sub_cancel, Nat.add_zero]

end RequestWordFields

end Laws

open Laws

theorem decode_encode {W : Nat} (hW : 0 < W) {i : Instr} (h : i.wf W = true) : decode W (encode W i) = .ok i := by
  have hzero := Nat.two_pow_pos W
  cases i with
  | add x y =>
    obtain ⟨hx, hy⟩ := Bool.and_eq_true_iff.mp h
    exact decode_requestWord hW (op := 0) (by omega) (of_decide_eq_true hx) (of_decide_eq_true hy)
  | isNan x => exact decode_requestWord hW (op := 1) (by omega) (of_decide_eq_true h) hzero
  | isInf x => exact decode_requestWord hW (op := 2) (by omega) (of_decide_eq_true h) hzero
  | isSubnormal x => exact decode_requestWord hW (op := 3) (by omega) (of_decide_eq_true h) hzero

/-- Settles O3: the encoder writes the fields that the decoder reads back, for each operation. -/
theorem decodeOfEncodeIsTheRequest : Obligations.DecodeOfEncodeIsTheRequest :=
  fun c _ h => decode_encode c.W_pos h

/-- Settles O1: a word made from fields decodes to the request those fields stand for, and no unary one has `y`. -/
theorem requestWordDecodesByItsOpField : Obligations.RequestWordDecodesByItsOpField := by
  intro c x y hx hy
  have hdecode : ∀ op < 4, decode c.W (op * 2 ^ (2 * c.W) + x * 2 ^ c.W + y) = .ok (Instr.ofFields op x y) :=
    fun op ho => requestWord_eq hx hy ▸ decode_requestWord c.W_pos ho hx hy
  exact ⟨hdecode 0 (by omega), hdecode 1 (by omega), hdecode 2 (by omega), hdecode 3 (by omega)⟩

/-- Settles O2: every word of the length of a request has fields, and they are `W` bits wide. -/
theorem decoderIsTotalOnRequestWords : Obligations.DecoderIsTotalOnRequestWords := by
  intro c w hw
  obtain ⟨op, x, y, ho, hx, hy, rfl⟩ := exists_eq_requestWord hw
  exact ⟨Instr.ofFields op x y, decode_requestWord c.W_pos ho hx hy, Instr.ofFields_wf op hx hy⟩

/-- Settles O4: the word is that of its fields, of which the encoder writes `y` for ADD alone. -/
theorem encodeOfDecodeIsTheWord : Obligations.EncodeOfDecodeIsTheWord := by
  intro c w i h
  obtain ⟨op, x, y, ho, hx, hy, rfl⟩ := exists_eq_requestWord (fits_of_decode_eq_ok h)
  rw [decode_requestWord c.W_pos ho hx hy] at h
  obtain rfl := Except.ok.inj h
  rw [encode_ofFields ho, requestWord_op hx hy, requestWord_y hx hy, requestWord_sub_y hx hy]
  split <;> rfl

/-- Settles O5, by evaluation: the words are closed, and decoding reads the widths of the configuration, not its policy. -/
theorem sampleRequestWordsDecode : Obligations.SampleRequestWordsDecode := ⟨rfl, rfl, rfl, rfl⟩

end Sys2Proof

/-! PROOFS. The five classes of patterns (R61, R62 of spec/30_encoding.md), by the three ranges of the exponent field. -/

namespace Sys2Proof

theorem Cfg.allOnes_ne_zero (c : Cfg) : 2 ^ c.E - 1 ≠ 0 := by
  have := c.four_le_two_pow_E
  omega

namespace Machine

/-- The exponents of normal values are all but the two reserved ones. -/
theorem normalExponent_iff (c : Cfg) (v : Nat) :
    (1 ≤ exponentField c v ∧ exponentField c v ≤ 2 ^ c.E - 2) ↔
      exponentField c v ≠ 0 ∧ exponentField c v ≠ 2 ^ c.E - 1 := by
  have hE := c.four_le_two_pow_E
  have hlt : exponentField c v < 2 ^ c.E := Nat.mod_lt _ (Nat.two_pow_pos _)
  omega

section Classes

variable {c : Cfg} {f : Fields}

theorem classify_of_exponent_allOnes (h : f.exponent = 2 ^ c.E - 1) :
    classify c f = if f.fraction = 0 then .infinity else .nan := by
  by_cases hf : f.fraction = 0
  · simp [classify, isNan_iff, isInf_iff, h, hf]
  · simp [classify, isNan_iff, h, hf]

theorem classify_of_exponent_zero (h : f.exponent = 0) :
    classify c f = if f.fraction = 0 then .zero else .subnormal := by
  have hones := c.allOnes_ne_zero.symm
  by_cases hf : f.fraction = 0 <;> simp [classify, isNan_iff, isInf_iff, isZero, isSubnormal, h, hf, hones]

theorem classify_of_exponent_between (hzero : f.exponent ≠ 0) (hones : f.exponent ≠ 2 ^ c.E - 1) :
    classify c f = .normal := by
  simp [classify, isNan_iff, isInf_iff, isZero, isSubnormal, hzero, hones]

end Classes

/-- Settles O20: an exponent of all ones leaves infinity and NaN, a zero one leaves zero and subnormal, and the fraction
decides; any other exponent is normal. -/
theorem everyPatternHasOneClass : Obligations.EveryPatternHasOneClass := by
  intro c v _
  have he := decompose_exponent c v
  have hf := decompose_fraction c v
  have hdistinct := c.allOnes_ne_zero
  rw [normalExponent_iff, InfPattern, NanPattern]
  by_cases hones : exponentField c v = 2 ^ c.E - 1
  · rw [classify_of_exponent_allOnes (he.trans hones), hf]
    split <;> simp [*]
  by_cases hzero : exponentField c v = 0
  · rw [classify_of_exponent_zero (he.trans hzero), hf]
    split <;> simp [*, hdistinct.symm]
  · rw [classify_of_exponent_between (he ▸ hzero) (he ▸ hones)]
    simp [hones, hzero]

end Machine
end Sys2Proof

/-! PROOFS. Packing and unpacking (R100 to R102 of spec/40_decompose_compose.md): the fields of a packed word, read by
dividing out the place values of a nested sum. -/

namespace Sys2Proof.Machine

section PackedFields

variable (c : Cfg)

/-- The packed word as a sum whose place values nest: the fraction, the exponent above it, the sign on top. -/
theorem compose_eq_nested (sg e f : Nat) :
    compose c sg e f = f % 2 ^ (c.P - 1) + 2 ^ (c.P - 1) * (e % 2 ^ c.E + 2 ^ c.E * (sg % 2)) := by
  rw [compose_eq, c.W_sub_one, Nat.pow_add]; ring

theorem compose_div_two_pow_fraction (sg e f : Nat) :
    compose c sg e f / 2 ^ (c.P - 1) = e % 2 ^ c.E + 2 ^ c.E * (sg % 2) := by
  have hpos := Nat.two_pow_pos (c.P - 1)
  rw [compose_eq_nested, Nat.add_mul_div_left _ _ hpos, Nat.div_eq_of_lt (Nat.mod_lt f hpos), Nat.zero_add]

theorem signField_eq_div_div (v : Nat) : signField c v = v / 2 ^ (c.P - 1) / 2 ^ c.E % 2 := by
  rw [signField, c.W_sub_one, Nat.add_comm, Nat.pow_add, Nat.div_div_eq_div_mul]

theorem signField_compose (sg e f : Nat) : signField c (compose c sg e f) = sg % 2 := by
  have hpos := Nat.two_pow_pos c.E
  rw [signField_eq_div_div, compose_div_two_pow_fraction, Nat.add_mul_div_left _ _ hpos,
    Nat.div_eq_of_lt (Nat.mod_lt e hpos), Nat.zero_add, Nat.mod_mod]

theorem exponentField_compose (sg e f : Nat) : exponentField c (compose c sg e f) = e % 2 ^ c.E := by
  rw [exponentField, compose_div_two_pow_fraction, Nat.add_mul_mod_self_left, Nat.mod_mod]

theorem fractionField_compose (sg e f : Nat) : fractionField c (compose c sg e f) = f % 2 ^ (c.P - 1) := by
  rw [fractionField, compose_eq_nested, Nat.add_mul_mod_self_left, Nat.mod_mod]

theorem decompose_eq (v : Nat) : decompose c v = ⟨signField c v, exponentField c v, fractionField c v⟩ := by
  rw [← decompose_sign, ← decompose_exponent, ← decompose_fraction]

theorem decompose_compose (sg e f : Nat) :
    decompose c (compose c sg e f) = ⟨sg % 2, e % 2 ^ c.E, f % 2 ^ (c.P - 1)⟩ := by
  rw [decompose_eq, signField_compose, exponentField_compose, fractionField_compose]

variable {c}

theorem decompose_compose_of_inRange {sg e f : Nat} (hs : sg ≤ 1) (he : e < 2 ^ c.E) (hf : f < 2 ^ (c.P - 1)) :
    decompose c (compose c sg e f) = ⟨sg, e, f⟩ := by
  rw [decompose_compose, Nat.mod_eq_of_lt (Nat.lt_succ_of_le hs), Nat.mod_eq_of_lt he, Nat.mod_eq_of_lt hf]

/-- A `W`-bit pattern has nothing above its sign bit, so its three fields make it up. -/
theorem compose_decompose {v : Nat} (hv : Fits v c.W) :
    compose c (decompose c v).sign (decompose c v).exponent (decompose c v).fraction = v := by
  have hsign : v / 2 ^ (c.P - 1) / 2 ^ c.E < 2 := by
    rw [Nat.div_div_eq_div_mul]
    apply Nat.div_lt_of_lt_mul
    calc v < 2 ^ c.W := hv
      _ = 2 ^ (c.P - 1) * 2 ^ c.E * 2 := by rw [c.two_pow_W]; ring
  rw [compose_eq_nested, decompose_eq, signField_eq_div_div, exponentField, fractionField]
  simp only [Nat.mod_mod]
  rw [Nat.mod_eq_of_lt hsign, Nat.mod_add_div, Nat.mod_add_div]

end PackedFields

/-- Settles O21: every pattern of `W` bits is the sum of its fields at their places, and dividing such a sum by the place
values gives each field back, reduced modulo its width, which is what a mask of that width leaves. -/
theorem decomposeAndComposeAreInverse : Obligations.DecomposeAndComposeAreInverse := by
  refine fun c => ⟨fun _ => compose_decompose, fun _ _ _ => decompose_compose_of_inRange, fun sg e f => ?_⟩
  rw [decompose_compose, Nat.and_one_is_mod, Cfg.exponentMask, Cfg.fractionMask, Nat.and_two_pow_sub_one_eq_mod,
    Nat.and_two_pow_sub_one_eq_mod]

end Sys2Proof.Machine

/-! PROOFS. The predicate operations (R115 to R118 of spec/41_classify.md): each response by its condition on the
fields, the two infinities, and the three predicates together. -/

namespace Sys2Proof.Machine

theorem boolWord_eq_ite {b : Bool} {p : Prop} [Decidable p] (h : b = true ↔ p) : boolWord b = if p then 1 else 0 :=
  if_congr h rfl rfl

section PredicateResponses

variable (c : Cfg) (x : Nat)

theorem response_isNan : response c (.isNan x) = if NanPattern c x then 1 else 0 := by
  rw [response, isNanResponse, packedIsNan, decompose_operand]
  exact boolWord_eq_ite (packedIsNan_iff c x)

theorem response_isInf : response c (.isInf x) = if InfPattern c x then 1 else 0 := by
  rw [response, isInfResponse, packedIsInf, decompose_operand]
  exact boolWord_eq_ite (packedIsInf_iff c x)

theorem response_isSubnormal : response c (.isSubnormal x) = if exponentField c x = 0 then 1 else 0 := by
  rw [response, isSubnormalResponse, packedIsSubnormal, decompose_operand]
  exact boolWord_eq_ite (packedIsSubnormal_iff c x)

/-- The three answers together say only whether the exponent is one of the two reserved ones: all ones is split between
NaN and infinity by the fraction, zero is subnormal's alone (R118). -/
theorem predicateResponses_sum :
    response c (.isNan x) + response c (.isInf x) + response c (.isSubnormal x) =
      if exponentField c x ≠ 0 ∧ exponentField c x ≠ 2 ^ c.E - 1 then 0 else 1 := by
  have hdistinct := c.allOnes_ne_zero
  rw [response_isNan, response_isInf, response_isSubnormal]
  by_cases hones : exponentField c x = 2 ^ c.E - 1
  · by_cases hf : fractionField c x = 0 <;> simp [NanPattern, InfPattern, hones, hf, hdistinct]
  · by_cases hzero : exponentField c x = 0 <;> simp [NanPattern, InfPattern, hones, hzero, hdistinct.symm]

end PredicateResponses

section Infinities

variable {c : Cfg} {x : Nat}

theorem infPattern_compose (sg : Nat) : InfPattern c (compose c sg c.expAllOnes 0) := by
  refine ⟨?_, ?_⟩
  · rw [exponentField_compose, Cfg.expAllOnes]
    exact Nat.mod_eq_of_lt (Nat.sub_one_lt_of_lt (Nat.two_pow_pos c.E))
  · rw [fractionField_compose, Nat.zero_mod]

/-- An infinity keeps nothing but its sign (R61). -/
theorem eq_compose_of_infPattern (hx : Fits x c.W) (h : InfPattern c x) :
    x = compose c (signField c x) c.expAllOnes 0 := by
  obtain ⟨hexponent, hfraction⟩ := h
  have hpacked := compose_decompose hx
  rw [decompose_eq, hexponent, hfraction] at hpacked
  exact hpacked.symm

theorem infPattern_iff_eq_compose (hx : Fits x c.W) :
    InfPattern c x ↔ x = compose c 0 c.expAllOnes 0 ∨ x = compose c 1 c.expAllOnes 0 := by
  constructor
  · intro h
    have hsign : signField c x = 0 ∨ signField c x = 1 := Nat.mod_two_eq_zero_or_one _
    have hpacked := eq_compose_of_infPattern hx h
    rcases hsign with hplus | hminus
    · exact .inl (by rwa [hplus] at hpacked)
    · exact .inr (by rwa [hminus] at hpacked)
  · rintro (rfl | rfl)
    · exact infPattern_compose 0
    · exact infPattern_compose 1

end Infinities

section SignInversion

variable (c : Cfg) (v : Nat)

/-- The exponent field lies below the sign bit. -/
theorem exponentField_eq_mod_div : exponentField c v = v % 2 ^ (c.W - 1) / 2 ^ (c.P - 1) := by
  rw [c.W_sub_one, Nat.add_comm, Nat.pow_add, Nat.mod_mul_right_div_self]

/-- The fraction field lies below the sign bit. -/
theorem fractionField_eq_mod_mod : fractionField c v = v % 2 ^ (c.W - 1) % 2 ^ (c.P - 1) := by
  rw [c.W_sub_one, Nat.pow_add, Nat.mod_mul_left_mod]

theorem xor_signBit_mod : (v ^^^ (1 <<< (c.W - 1))) % 2 ^ (c.W - 1) = v % 2 ^ (c.W - 1) := by
  rw [Nat.xor_mod_two_pow, Nat.one_shiftLeft, Nat.mod_self, Nat.xor_zero]

theorem exponentField_xor_signBit : exponentField c (v ^^^ (1 <<< (c.W - 1))) = exponentField c v := by
  rw [exponentField_eq_mod_div, xor_signBit_mod, ← exponentField_eq_mod_div]

theorem fractionField_xor_signBit : fractionField c (v ^^^ (1 <<< (c.W - 1))) = fractionField c v := by
  rw [fractionField_eq_mod_mod, xor_signBit_mod, ← fractionField_eq_mod_mod]

end SignInversion

/-- Settles O16: the response by its condition on the fields, and the second row of the table of request words. -/
theorem isNanTestsExponentAndFraction : Obligations.IsNanTestsExponentAndFraction := by
  refine fun x s => ⟨response_isNan s.cfg x ▸ exec_eq_respond (.isNan x) s, fun hx y hy => ?_⟩
  obtain ⟨-, hdecode, -, -⟩ := requestWordDecodesByItsOpField s.cfg x y hx hy
  exact hdecode

/-- Settles O17: the response by its condition on the fields, which leave an infinity only its sign to differ in, and
the third row of the table of request words. -/
theorem isInfTestsExponentAndFraction : Obligations.IsInfTestsExponentAndFraction := by
  refine fun x s => ⟨response_isInf s.cfg x ▸ exec_eq_respond (.isInf x) s, infPattern_iff_eq_compose,
    fun hx y hy => ?_⟩
  obtain ⟨-, -, hdecode, -⟩ := requestWordDecodesByItsOpField s.cfg x y hx hy
  exact hdecode

/-- Settles O18: the response by its condition on the exponent, and the last row of the table of request words. -/
theorem isSubnormalTestsTheExponent : Obligations.IsSubnormalTestsTheExponent := by
  refine fun x s => ⟨response_isSubnormal s.cfg x ▸ exec_eq_respond (.isSubnormal x) s, fun hx y hy => ?_⟩
  obtain ⟨-, -, -, hdecode⟩ := requestWordDecodesByItsOpField s.cfg x y hx hy
  exact hdecode

/-- Settles O19: the three answers sum to 1 on the two reserved exponents and to 0 on all others, and no answer reads
the sign bit. -/
theorem predicatesPartitionThePatterns : Obligations.PredicatesPartitionThePatterns := by
  intro c x _
  rw [predicateResponses_sum, normalExponent_iff]
  refine ⟨?_, ?_, ?_, ?_, ?_⟩
  · split <;> omega
  · split <;> simp [*]
  · simp only [response_isNan, NanPattern, exponentField_xor_signBit, fractionField_xor_signBit]
  · simp only [response_isInf, InfPattern, exponentField_xor_signBit, fractionField_xor_signBit]
  · simp only [response_isSubnormal, exponentField_xor_signBit]

end Sys2Proof.Machine

/-! PROOFS. The special values of ADD (R125 to R131 of spec/42_special_values.md): the pseudocode of R131 in the
conditions of R61, and what it answers for each pair of special operands. -/

namespace Sys2Proof.Machine

section SpecialOperands

variable {c : Cfg} {x y z : Nat}

theorem not_nanPattern_of_infPattern (h : InfPattern c x) : ¬ NanPattern c x := fun hnan => hnan.2 h.2

theorem not_nanPattern_of_finitePattern (h : FinitePattern c x) : ¬ NanPattern c x := fun hnan => h hnan.1

theorem not_infPattern_of_finitePattern (h : FinitePattern c x) : ¬ InfPattern c x := fun hinf => h hinf.1

theorem nanPattern_operand_iff : NanPattern c (operand c x) ↔ NanPattern c x := by
  rw [← packedIsNan_iff, packedIsNan, decompose_operand, ← packedIsNan, packedIsNan_iff]

/-- Infinities of one sign are one pattern: the sign is all they keep (R129). -/
theorem eq_of_infPattern_of_signField_eq (hx : Fits x c.W) (hy : Fits y c.W) (hxInf : InfPattern c x)
    (hyInf : InfPattern c y) (h : signField c x = signField c y) : x = y := by
  rw [eq_compose_of_infPattern hx hxInf, eq_compose_of_infPattern hy hyInf, h]

/-- The tests of R131 in its order, each by its condition on the fields. -/
theorem shortCircuit_eq_ite (c : Cfg) (x y : Nat) :
    shortCircuit c x y =
      if NanPattern c x ∨ NanPattern c y then some (canonNan c)
      else if InfPattern c x ∧ InfPattern c y then
        if signField c x = signField c y then some x else some (canonNan c)
      else if InfPattern c x then some x
      else if InfPattern c y then some y
      else none := by
  simp only [shortCircuit, Bool.or_eq_true, Bool.and_eq_true, packedIsNan_iff, packedIsInf_iff, decompose_sign]

/-- NaN is tested first, so the other operand may be an infinity (R125). -/
theorem shortCircuit_of_nanPattern (h : NanPattern c x ∨ NanPattern c y) : shortCircuit c x y = some (canonNan c) := by
  rw [shortCircuit_eq_ite, if_pos h]

theorem shortCircuit_of_infPattern (hx : InfPattern c x) (hy : InfPattern c y) :
    shortCircuit c x y = if signField c x = signField c y then some x else some (canonNan c) := by
  have hnan := not_or.mpr ⟨not_nanPattern_of_infPattern hx, not_nanPattern_of_infPattern hy⟩
  rw [shortCircuit_eq_ite, if_neg hnan, if_pos ⟨hx, hy⟩]

theorem shortCircuit_of_infPattern_of_finitePattern (hx : InfPattern c x) (hy : FinitePattern c y) :
    shortCircuit c x y = some x := by
  have hnan := not_or.mpr ⟨not_nanPattern_of_infPattern hx, not_nanPattern_of_finitePattern hy⟩
  have hyInf := not_infPattern_of_finitePattern hy
  rw [shortCircuit_eq_ite, if_neg hnan, if_neg (not_and_of_not_right _ hyInf), if_pos hx]

theorem shortCircuit_of_finitePattern_of_infPattern (hx : FinitePattern c x) (hy : InfPattern c y) :
    shortCircuit c x y = some y := by
  have hnan := not_or.mpr ⟨not_nanPattern_of_finitePattern hx, not_nanPattern_of_infPattern hy⟩
  have hxInf := not_infPattern_of_finitePattern hx
  rw [shortCircuit_eq_ite, if_neg hnan, if_neg (not_and_of_not_left _ hxInf), if_neg hxInf, if_pos hy]

end SpecialOperands

section SpecialResponses

variable {s : State} {x y z : Nat}

/-- What the short-circuit answers on the operand ports is the response of ADD, and ADD does nothing else (R132). -/
theorem exec_add_of_shortCircuit (h : shortCircuit s.cfg (operand s.cfg x) (operand s.cfg y) = some z) :
    exec (.add x y) s = .next (s.answering z) := by
  have hresponse : response s.cfg (.add x y) = z := addPacked_of_shortCircuit h
  rw [exec_eq_respond, hresponse, State.respond]

theorem exec_add_of_shortCircuit_of_fits (hx : Fits x s.cfg.W) (hy : Fits y s.cfg.W)
    (h : shortCircuit s.cfg x y = some z) : exec (.add x y) s = .next (s.answering z) :=
  exec_add_of_shortCircuit (by rwa [operand_of_fits hx, operand_of_fits hy])

end SpecialResponses

/-- Settles O23: the fields that make a NaN reach the short-circuit, which tests for NaN before all else. -/
theorem addOfNanIsTheCanonicalNan : Obligations.AddOfNanIsTheCanonicalNan := by
  intro x y s h
  have hports := h.imp nanPattern_operand_iff.mpr nanPattern_operand_iff.mpr
  rw [← canonNan_eq]
  exact exec_add_of_shortCircuit (shortCircuit_of_nanPattern hports)

/-- Settles O24: a finite operand fails every test of the short-circuit, so the infinite one is its answer. -/
theorem addOfOneInfinityIsThatInfinity : Obligations.AddOfOneInfinityIsThatInfinity := fun _ _ _ hx hy =>
  ⟨fun hxInf hyFin =>
      exec_add_of_shortCircuit_of_fits hx hy (shortCircuit_of_infPattern_of_finitePattern hxInf hyFin),
    fun hxFin hyInf =>
      exec_add_of_shortCircuit_of_fits hx hy (shortCircuit_of_finitePattern_of_infPattern hxFin hyInf)⟩

/-- Settles O25: between two infinities the short-circuit compares the signs, and those of one sign are equal. -/
theorem addOfTwoInfinities : Obligations.AddOfTwoInfinities := by
  intro x y s hx hy hxInf hyInf
  have hanswer := shortCircuit_of_infPattern hxInf hyInf
  refine ⟨fun hsame => ⟨?_, eq_of_infPattern_of_signField_eq hx hy hxInf hyInf hsame⟩, fun hopposite => ?_⟩
  · exact exec_add_of_shortCircuit_of_fits hx hy (hanswer.trans (if_pos hsame))
  · rw [← canonNan_eq]
    exact exec_add_of_shortCircuit_of_fits hx hy (hanswer.trans (if_neg hopposite))

end Sys2Proof.Machine

/-! PROOFS. The Aligner (R137 to R145 of spec/43_align.md): a sticky shift past every bit is the sticky bit alone, and
the stage is one sticky shift of each operand by how far its exponent falls short of the other's. -/

namespace Sys2Proof.Machine

section StickyShift

variable {m n : Nat}

/-- With no bit above bit `n`, a shift by `n` leaves bit `n` and the sticky bit, so at most 1. -/
theorem srs_le_one (h : m < 2 ^ (n + 1)) : srs m n ≤ 1 := by
  have hkept : m / 2 ^ n < 2 := Nat.div_lt_of_lt_mul (by rwa [← Nat.pow_succ])
  rw [srs_eq]; split
  · omega
  · rw [or_one_eq]; omega

/-- No set bit is lost without a trace (R147). -/
theorem srs_eq_zero_iff : srs m n = 0 ↔ m = 0 := by
  constructor
  · intro h
    have hdropped : m % 2 ^ n = 0 := by
      by_contra hne
      have := srs_odd_of_dropped hne
      omega
    rw [srs_of_exact hdropped] at h
    rw [← Nat.div_add_mod m (2 ^ n), h, hdropped, Nat.mul_zero]
  · rintro rfl
    rw [srs_of_exact (Nat.zero_mod _), Nat.zero_div]

theorem srs_eq_ite_of_lt (h : m < 2 ^ (n + 1)) : srs m n = if m = 0 then 0 else 1 := by
  have hle := srs_le_one h
  split
  next hm => exact srs_eq_zero_iff.mpr hm
  next hm =>
    have hne : srs m n ≠ 0 := mt srs_eq_zero_iff.mp hm
    omega

end StickyShift

section ExtendedMantissa

variable {c : Cfg} {f : Fields}

theorem extendedMantissa_mod_eight (c : Cfg) (f : Fields) : extendedMantissa c f % 8 = 0 := by
  rw [extendedMantissa_eq, Nat.mul_mod_right]

/-- The implicit bit of a normal operand, three places up (R114, R139). -/
theorem extendedMantissa_testBit (hf : f.fraction < 2 ^ (c.P - 1)) (hnormal : f.exponent ≠ 0) :
    (extendedMantissa c f).testBit (c.P + 2) = true := by
  have himplicit : 2 ^ (c.P + 2) = 8 * 2 ^ (c.P - 1) := by rw [Nat.pow_add, c.two_pow_P]; omega
  rw [testBit_of_lt_pow_succ (extendedMantissa_lt c hf), himplicit, extendedMantissa_eq,
    trueMantissa_eq c _ hf, if_neg hnormal]
  omega

/-- Finite operands have the exponents of normal values (R138). -/
theorem effectiveExponent_le_of_isFinite (h : f.isFinite c) : effectiveExponent f.exponent ≤ 2 ^ c.E - 2 := by
  obtain ⟨⟨-, hlt, -⟩, hones⟩ := h
  have hE := c.four_le_two_pow_E
  unfold Cfg.expAllOnes at hones
  unfold effectiveExponent
  split <;> omega

end ExtendedMantissa

section Align

variable {c : Cfg} {x y : Fields}

/-- The three cases of R146 in one: natural subtraction is 0 for the operand that is not shifted. -/
theorem align_eq (c : Cfg) (x y : Fields) :
    align c x y =
      { xMantissa := srs (extendedMantissa c x)
          (min (effectiveExponent y.exponent - effectiveExponent x.exponent) (c.P + 2))
        yMantissa := srs (extendedMantissa c y)
          (min (effectiveExponent x.exponent - effectiveExponent y.exponent) (c.P + 2))
        xExponent := (max (effectiveExponent x.exponent) (effectiveExponent y.exponent) : Nat)
        yExponent := (max (effectiveExponent x.exponent) (effectiveExponent y.exponent) : Nat) } := by
  have hx : (-shiftDistance x y).toNat = effectiveExponent y.exponent - effectiveExponent x.exponent := by
    unfold shiftDistance; omega
  have hy : (shiftDistance x y).toNat = effectiveExponent x.exponent - effectiveExponent y.exponent := by
    unfold shiftDistance; omega
  rcases lt_trichotomy (effectiveExponent x.exponent) (effectiveExponent y.exponent) with hlt | heq | hgt
  · rw [align_of_shift_neg c (by unfold shiftDistance; omega), hx, Nat.sub_eq_zero_of_le hlt.le,
      Nat.max_eq_right hlt.le, Nat.zero_min, srs_zero]
  · rw [align_of_shift_zero c (by unfold shiftDistance; omega), heq, Nat.sub_self, Nat.max_self, Nat.zero_min,
      srs_zero, srs_zero]
  · rw [align_of_shift_pos c (by unfold shiftDistance; omega), hy, Nat.sub_eq_zero_of_le hgt.le,
      Nat.max_eq_left hgt.le, Nat.zero_min, srs_zero]

theorem align_xExponent (c : Cfg) (x y : Fields) :
    (align c x y).xExponent = (max (effectiveExponent x.exponent) (effectiveExponent y.exponent) : Nat) := by
  rw [align_eq]

theorem align_yExponent (c : Cfg) (x y : Fields) :
    (align c x y).yExponent = (max (effectiveExponent x.exponent) (effectiveExponent y.exponent) : Nat) := by
  rw [align_eq]

theorem align_xExponent_le (hx : x.isFinite c) (hy : y.isFinite c) : (align c x y).xExponent ≤ 2 ^ c.E - 2 := by
  have hmax := max_le (effectiveExponent_le_of_isFinite hx) (effectiveExponent_le_of_isFinite hy)
  have htwo : 2 ≤ 2 ^ c.E := Nat.le_trans (by decide) c.four_le_two_pow_E
  zify [htwo] at hmax
  rw [align_xExponent]
  exact_mod_cast hmax

theorem align_xMantissa_lt (hf : x.fraction < 2 ^ (c.P - 1)) : (align c x y).xMantissa < 2 ^ (c.P + 3) := by
  rw [align_eq]; exact srs_lt (by omega) (extendedMantissa_lt c hf)

theorem align_yMantissa_lt (hf : y.fraction < 2 ^ (c.P - 1)) : (align c x y).yMantissa < 2 ^ (c.P + 3) := by
  rw [align_eq]; exact srs_lt (by omega) (extendedMantissa_lt c hf)

theorem align_xMantissa_of_le (h : effectiveExponent y.exponent ≤ effectiveExponent x.exponent) :
    (align c x y).xMantissa = extendedMantissa c x := by
  simp [align_eq, Nat.sub_eq_zero_of_le h]

theorem align_yMantissa_of_le (h : effectiveExponent x.exponent ≤ effectiveExponent y.exponent) :
    (align c x y).yMantissa = extendedMantissa c y := by
  simp [align_eq, Nat.sub_eq_zero_of_le h]

/-- One operand is not shifted, and its guard, round and sticky bits are the three zeros appended to it. -/
theorem align_mod_eight (c : Cfg) (x y : Fields) :
    (align c x y).xMantissa % 8 = 0 ∨ (align c x y).yMantissa % 8 = 0 := by
  rcases le_total (effectiveExponent y.exponent) (effectiveExponent x.exponent) with h | h
  · left; rw [align_xMantissa_of_le h, extendedMantissa_mod_eight]
  · right; rw [align_yMantissa_of_le h, extendedMantissa_mod_eight]

end Align

/-- Settles O35: an extended mantissa has no bit above `P + 2`, so either shift leaves the sticky bit alone. -/
theorem shiftClampIsExact : Obligations.ShiftClampIsExact := by
  intro c m n hm hn
  have hclamped : srs m (c.P + 2) = if m = 0 then 0 else 1 := srs_eq_ite_of_lt hm
  have hlong : srs m n = if m = 0 then 0 else 1 :=
    srs_eq_ite_of_lt (hm.trans_le (Nat.pow_le_pow_right Nat.two_pos (by omega)))
  exact ⟨hlong.trans hclamped.symm, hlong⟩

/-- Settles O36: the operand of the larger exponent is shifted by 0, and a sticky shift never makes the other wider. -/
theorem alignerEqualisesExponents : Obligations.AlignerEqualisesExponents := by
  intro c x y hx hy
  have ⟨⟨_, _, hxFraction⟩, _⟩ := hx
  have ⟨⟨_, _, hyFraction⟩, _⟩ := hy
  have hpos : 1 ≤ (align c x y).xExponent := by
    have := effectiveExponent_pos x.exponent
    rw [align_xExponent]; omega
  refine ⟨?equal, align_xExponent c x y, hpos, align_xExponent_le hx hy, align_xMantissa_lt hxFraction,
    align_yMantissa_lt hyFraction, align_mod_eight c x y, fun hle => ?keepsX, fun hle => ?keepsY⟩
  case equal => rw [align_xExponent, align_yExponent]
  case keepsX =>
    rw [align_xMantissa_of_le hle]
    exact ⟨rfl, extendedMantissa_testBit hxFraction⟩
  case keepsY =>
    rw [align_yMantissa_of_le hle]
    exact ⟨rfl, extendedMantissa_testBit hyFraction⟩

end Sys2Proof.Machine

/-! PROOFS. The normalisation loop (R158 to R160 of spec/44_combine_normalize.md): where it stops at once, and its count
of the zeros above the highest set bit. -/

namespace Sys2Proof.Machine

section NormalisationLoop

variable {c : Cfg} {m : Nat}

theorem normLoop_of_testBit (h : m.testBit (c.P + 2) = true) (fuel : Nat) (e : Int) :
    normLoop c fuel m e = (m, e) := by
  cases fuel with
  | zero => rfl
  | succ fuel => rw [normLoop, if_pos h]

theorem normOnce_of_log2 (h : c.P + 2 ≤ m.log2) (e : Int) : normOnce c m e = (m, e) := by
  simp [normOnce, Nat.sub_eq_zero_of_le h]

theorem log2_shiftLeft_one (hm : m ≠ 0) : (m <<< 1).log2 = m.log2 + 1 := by
  rw [Nat.shiftLeft_eq, Nat.pow_one, Nat.mul_comm, Nat.log2_two_mul hm]

/-- One shift moves the highest set bit one place up, so the single-step form has one place less to go. -/
theorem normOnce_shiftLeft_one (hm : m ≠ 0) (hlow : m.log2 < c.P + 2) (e : Int) :
    normOnce c (m <<< 1) (e - 1) = normOnce c m e := by
  obtain ⟨k, hk⟩ : ∃ k, c.P + 2 - m.log2 = k + 1 := ⟨c.P + 2 - m.log2 - 1, by omega⟩
  have hrest : c.P + 2 - (m.log2 + 1) = k := by omega
  rw [normOnce, normOnce, log2_shiftLeft_one hm, hrest, hk, ← Nat.shiftLeft_add, Nat.add_comm 1 k]
  congr 1
  push_cast
  ring

/-- With fuel for every zero above the highest set bit the loop reaches the implied-bit position. -/
theorem normLoop_eq_normOnce {fuel : Nat} (hm : m ≠ 0) (hlt : m < 2 ^ (c.P + 3)) (hfuel : c.P + 2 - m.log2 ≤ fuel)
    (e : Int) : normLoop c fuel m e = normOnce c m e := by
  induction fuel generalizing m e with
  | zero => rw [normLoop, normOnce_of_log2 (by omega)]
  | succ fuel ih =>
    by_cases hset : 2 ^ (c.P + 2) ≤ m
    · rw [normLoop_of_testBit ((testBit_of_lt_pow_succ hlt).mpr hset), normOnce_of_log2 ((Nat.le_log2 hm).mpr hset)]
    · have hlow : m.log2 < c.P + 2 := (Nat.log2_lt hm).mpr (by omega)
      have hlog := log2_shiftLeft_one hm
      have hlt' : m <<< 1 < 2 ^ (c.P + 3) := by rw [Nat.shiftLeft_eq, Nat.pow_succ 2 (c.P + 2)]; omega
      rw [normLoop, if_neg (by rw [Nat.testBit_lt_two_pow (by omega)]; decide),
        ih (by omega) hlt' (by omega), normOnce_shiftLeft_one hm hlow]

end NormalisationLoop

/-- Settles O38: the fuel `P + 3` covers the zeros above the highest set bit of any mantissa. -/
theorem normalisationLoopIsOneShift : Obligations.NormalisationLoopIsOneShift := by
  intro c m e hpos hlt
  exact normLoop_eq_normOnce hpos.ne' hlt (by unfold normFuel; omega) e

end Sys2Proof.Machine

/-! PROOFS. The magnitude of the raw sum (R151, R157, R159 of spec/44_combine_normalize.md): its range, when it carries
out, and how far below the implied-bit position its highest set bit can lie. -/

namespace Sys2Proof.Machine

section Combine

variable {a b k : Nat}

theorem natAbs_combine_comm (sub : Bool) (a b : Nat) : (combine sub a b).natAbs = (combine sub b a).natAbs := by
  cases sub
  · rw [combine_false, combine_false, Int.add_comm]
  · rw [combine_true, combine_true, ← Int.natAbs_neg, Int.neg_sub]

theorem natAbs_combine_true_lt (ha : a < k) (hb : b < k) : (combine true a b).natAbs < k := by
  rw [combine_true]; omega

theorem natAbs_combine_lt (sub : Bool) (ha : a < k) (hb : b < k) : (combine sub a b).natAbs < 2 * k := by
  cases sub
  · rw [combine_false]; omega
  · have := natAbs_combine_true_lt ha hb
    omega

/-- An operand of at least twice the other's bound leaves at least that bound. -/
theorem le_natAbs_combine (sub : Bool) (ha : 2 * k ≤ a) (hb : b < k) : k ≤ (combine sub a b).natAbs := by
  cases sub
  · rw [combine_false]; omega
  · rw [combine_true]; omega

theorem natAbs_combine_mod (sub : Bool) (ha : a % k = 0) (hb : b % k = 0) : (combine sub a b).natAbs % k = 0 := by
  have ha' : (k : Int) ∣ a := by exact_mod_cast Nat.dvd_of_mod_eq_zero ha
  have hb' : (k : Int) ∣ b := by exact_mod_cast Nat.dvd_of_mod_eq_zero hb
  apply Nat.mod_eq_zero_of_dvd
  rw [← Int.natCast_dvd]
  cases sub
  · exact combine_false a b ▸ Int.dvd_add ha' hb'
  · exact combine_true a b ▸ Int.dvd_sub ha' hb'

end Combine

section CarryOut

variable {c : Cfg} {m n k : Nat}

/-- A sticky shift by `n` takes off `n` bits. -/
theorem srs_lt_of_lt_add (hk : 0 < k) (h : m < 2 ^ (n + k)) : srs m n < 2 ^ k := by
  have hkept : m >>> n < 2 ^ k := by
    rw [Nat.shiftRight_eq_div_pow]
    exact Nat.div_lt_of_lt_mul (by rwa [← Nat.pow_add])
  exact Nat.or_lt_two_pow hkept (by split <;> simp [Nat.one_lt_two_pow hk.ne'])

theorem carryMantissa_of_carry (h : m.testBit (c.P + 3) = true) : carryMantissa c m = srs m 1 := by
  rw [carryMantissa_eq, if_pos h]

theorem carryMantissa_of_no_carry (h : m.testBit (c.P + 3) = false) : carryMantissa c m = m := by
  rw [carryMantissa_eq, h]; rfl

theorem carryExponent_of_carry (h : m.testBit (c.P + 3) = true) (e : Int) : carryExponent c m e = e + 1 := if_pos h

theorem carryExponent_of_no_carry (h : m.testBit (c.P + 3) = false) (e : Int) : carryExponent c m e = e := by
  rw [carryExponent, h]; rfl

theorem two_pow_le_of_carry (hlt : m < 2 ^ (c.P + 4)) (h : m.testBit (c.P + 3) = true) : 2 ^ (c.P + 3) ≤ m :=
  (testBit_of_lt_pow_succ hlt).mp h

theorem lt_two_pow_of_no_carry (hlt : m < 2 ^ (c.P + 4)) (h : m.testBit (c.P + 3) = false) : m < 2 ^ (c.P + 3) := by
  by_contra hle
  have hset := (testBit_of_lt_pow_succ hlt).mpr (Nat.le_of_not_lt hle)
  simp [h] at hset

/-- The carry-out shift puts the overflow bit at the implied-bit position (R157). -/
theorem carryMantissa_range_of_carry (hlt : m < 2 ^ (c.P + 4)) (h : m.testBit (c.P + 3) = true) :
    2 ^ (c.P + 2) ≤ carryMantissa c m ∧ carryMantissa c m < 2 ^ (c.P + 3) := by
  have hle := two_pow_le_of_carry hlt h
  have hkept := (srs_bounds m 1).1
  rw [carryMantissa_of_carry h]
  exact ⟨by rw [Nat.pow_succ] at hle; omega, srs_lt_of_lt_add (by omega) (by rwa [Nat.add_comm])⟩

theorem carryMantissa_lt (hlt : m < 2 ^ (c.P + 4)) : carryMantissa c m < 2 ^ (c.P + 3) := by
  cases hcarry : m.testBit (c.P + 3) with
  | true => exact (carryMantissa_range_of_carry hlt hcarry).2
  | false =>
    rw [carryMantissa_of_no_carry hcarry]
    exact lt_two_pow_of_no_carry hlt hcarry

end CarryOut

section RawSum

variable {c : Cfg} {x y : Fields}

theorem align_xMantissa (c : Cfg) (x y : Fields) :
    (align c x y).xMantissa = srs (extendedMantissa c x)
      (min (effectiveExponent y.exponent - effectiveExponent x.exponent) (c.P + 2)) := by
  rw [align_eq]

theorem align_yMantissa (c : Cfg) (x y : Fields) :
    (align c x y).yMantissa = srs (extendedMantissa c y)
      (min (effectiveExponent x.exponent - effectiveExponent y.exponent) (c.P + 2)) := by
  rw [align_eq]

/-- The magnitude of the raw sum of two aligned operands (R152, R155). -/
abbrev rawMagnitude (c : Cfg) (sub : Bool) (x y : Fields) : Nat :=
  (combine sub (align c x y).xMantissa (align c x y).yMantissa).natAbs

theorem rawMagnitude_swap (c : Cfg) (sub : Bool) (x y : Fields) : rawMagnitude c sub y x = rawMagnitude c sub x y := by
  obtain ⟨hx, hy⟩ : (align c y x).xMantissa = (align c x y).yMantissa ∧
      (align c y x).yMantissa = (align c x y).xMantissa := by simp [align_eq]
  rw [rawMagnitude, hx, hy, natAbs_combine_comm]

theorem rawMagnitude_lt (sub : Bool) (hx : x.isFinite c) (hy : y.isFinite c) :
    rawMagnitude c sub x y < 2 ^ (c.P + 4) := by
  obtain ⟨⟨-, -, hxFraction⟩, -⟩ := hx
  obtain ⟨⟨-, -, hyFraction⟩, -⟩ := hy
  have h := natAbs_combine_lt sub (align_xMantissa_lt (c := c) (y := y) hxFraction)
    (align_yMantissa_lt (c := c) (x := x) hyFraction)
  rwa [← Nat.pow_succ'] at h

theorem rawMagnitude_mod_eight (c : Cfg) (sub : Bool)
    (h : effectiveExponent x.exponent = effectiveExponent y.exponent) :
    rawMagnitude c sub x y % 8 = 0 := by
  rw [rawMagnitude, align_xMantissa_of_le h.ge, align_yMantissa_of_le h.le]
  exact natAbs_combine_mod sub (extendedMantissa_mod_eight c x) (extendedMantissa_mod_eight c y)

/-- A shift by 1 moves the three appended zeros down by one. -/
theorem align_yMantissa_mod_four (c : Cfg)
    (h : effectiveExponent x.exponent ≤ effectiveExponent y.exponent + 1) : (align c x y).yMantissa % 4 = 0 := by
  have hmod := extendedMantissa_mod_eight c y
  rcases Nat.le_one_iff_eq_zero_or_eq_one.mp (Nat.sub_le_iff_le_add'.mpr h) with hzero | hone
  · rw [align_yMantissa_of_le (Nat.sub_eq_zero_iff_le.mp hzero)]; omega
  · have hmin : min 1 (c.P + 2) = 1 := by omega
    rw [align_yMantissa, hone, hmin, srs_of_exact (by omega)]; omega

/-- The operand of the larger exponent is normal and keeps its implicit bit, against which the other has lost two places
or more. -/
theorem two_pow_le_rawMagnitude (sub : Bool) (hx : x.isFinite c) (hy : y.isFinite c)
    (h : effectiveExponent y.exponent + 2 ≤ effectiveExponent x.exponent) :
    2 ^ (c.P + 1) ≤ rawMagnitude c sub x y := by
  obtain ⟨⟨-, -, hxFraction⟩, -⟩ := hx
  obtain ⟨⟨-, -, hyFraction⟩, -⟩ := hy
  have hnormal : x.exponent ≠ 0 := by
    intro hzero
    have hone : effectiveExponent x.exponent = 1 := if_pos hzero
    have := effectiveExponent_pos y.exponent
    omega
  have hbig : 2 * 2 ^ (c.P + 1) ≤ (align c x y).xMantissa := by
    rw [align_xMantissa_of_le (by omega), ← Nat.pow_succ']
    exact (testBit_of_lt_pow_succ (extendedMantissa_lt c hxFraction)).mp (extendedMantissa_testBit hxFraction hnormal)
  have hsmall : (align c x y).yMantissa < 2 ^ (c.P + 1) := by
    rw [align_yMantissa]
    exact srs_lt_of_lt_add (by omega)
      ((extendedMantissa_lt c hyFraction).trans_le (Nat.pow_le_pow_right Nat.two_pos (by omega)))
  exact le_natAbs_combine sub hbig hsmall

/-- Either the operands are at most one place apart and the two lowest bits are zeros, or nothing much cancels (R159). -/
theorem rawMagnitude_mod_four_or_two_pow_le (sub : Bool) (hx : x.isFinite c) (hy : y.isFinite c) :
    rawMagnitude c sub x y % 4 = 0 ∨ 2 ^ (c.P + 1) ≤ rawMagnitude c sub x y := by
  wlog hle : effectiveExponent y.exponent ≤ effectiveExponent x.exponent generalizing x y
  · rw [← rawMagnitude_swap]; exact this hy hx (by omega)
  by_cases hnear : effectiveExponent x.exponent ≤ effectiveExponent y.exponent + 1
  · have hmod := extendedMantissa_mod_eight c x
    have hxMod : (align c x y).xMantissa % 4 = 0 := by rw [align_xMantissa_of_le hle]; omega
    exact .inl (natAbs_combine_mod sub hxMod (align_yMantissa_mod_four c hnear))
  · exact .inr (two_pow_le_rawMagnitude sub hx hy (by omega))

theorem four_le_rawMagnitude {sub : Bool} (hx : x.isFinite c) (hy : y.isFinite c) (hne : rawMagnitude c sub x y ≠ 0) :
    4 ≤ rawMagnitude c sub x y := by
  rcases rawMagnitude_mod_four_or_two_pow_le sub hx hy with hmod | hle
  · omega
  · have hfour : 2 ^ 2 ≤ 2 ^ (c.P + 1) := Nat.pow_le_pow_right Nat.two_pos (by have := c.two_le_P; omega)
    omega

/-- The mantissa that enters the loop is at least 4 (R159). -/
theorem four_le_carryMantissa {sub : Bool} (hx : x.isFinite c) (hy : y.isFinite c)
    (hne : rawMagnitude c sub x y ≠ 0) : 4 ≤ carryMantissa c (rawMagnitude c sub x y) := by
  cases hcarry : (rawMagnitude c sub x y).testBit (c.P + 3) with
  | true =>
    have hfour : 2 ^ 2 ≤ 2 ^ (c.P + 2) := Nat.pow_le_pow_right Nat.two_pos (by omega)
    exact hfour.trans (carryMantissa_range_of_carry (rawMagnitude_lt sub hx hy) hcarry).1
  | false =>
    rw [carryMantissa_of_no_carry hcarry]
    exact four_le_rawMagnitude hx hy hne

end RawSum

/-- Settles O37: a difference stays below the overflow bit, and a sum that reaches it is shifted to the implied-bit
position, where the loop stops at once. -/
theorem carryOutLeavesNormalisedMantissa : Obligations.CarryOutLeavesNormalisedMantissa := by
  intro c x y sub hx hy hcarry
  have hlt := rawMagnitude_lt sub hx hy
  obtain ⟨hlow, hhigh⟩ := carryMantissa_range_of_carry hlt hcarry
  refine ⟨?addition, hlow, hhigh, ?exponent, normLoop_of_testBit ((testBit_of_lt_pow_succ hhigh).mpr hlow)⟩
  case addition =>
    cases sub with
    | false => rfl
    | true =>
      obtain ⟨⟨-, -, hxFraction⟩, -⟩ := hx
      obtain ⟨⟨-, -, hyFraction⟩, -⟩ := hy
      have hdiff := natAbs_combine_true_lt (align_xMantissa_lt (c := c) (y := y) hxFraction)
        (align_yMantissa_lt (c := c) (x := x) hyFraction)
      rw [Nat.testBit_lt_two_pow hdiff] at hcarry
      exact absurd hcarry (by decide)
  case exponent =>
    have := align_xExponent_le hx hy
    rw [carryExponent_of_carry hcarry]
    omega

/-- Settles O39: a raw sum is 0 or at least 4, so two zeros at the bottom are all that the loop need not move past. -/
theorem normalisationShiftsAtMostP : Obligations.NormalisationShiftsAtMostP := by
  intro c x y sub hx hy hne
  have hfour := four_le_carryMantissa hx hy (Int.natAbs_ne_zero.mpr hne)
  have hlog : 2 ≤ (carryMantissa c (rawMagnitude c sub x y)).log2 := (Nat.le_log2 (by omega)).mpr hfour
  exact Nat.sub_le_of_le_add (Nat.add_le_add_left hlog c.P)

end Sys2Proof.Machine

/-! PROOFS. What a sticky bit keeps of an exact number (R147 of spec/43_align.md, R154 to R156 and R161 of
spec/44_combine_normalize.md), and that every step of the addition keeps it. -/

namespace Sys2Proof.Machine

/-- `m` stands for `q` with a sticky bit at bit 0: it is `q` itself, or it is odd and `q` lies strictly between its two
even neighbours. -/
def StickyOf (m : Int) (q : ℚ) : Prop := q = m ∨ (m % 2 = 1 ∧ (m : ℚ) - 1 < q ∧ q < m + 1)

section StickyOf

variable {m n : Int} {q r : ℚ}

theorem StickyOf.eq_of_even (h : StickyOf m q) (heven : m % 2 = 0) : q = m := by
  rcases h with heq | ⟨hodd, -, -⟩
  · exact heq
  · omega

theorem StickyOf.neg (h : StickyOf m q) : StickyOf (-m) (-q) := by
  rcases h with rfl | ⟨hodd, hlow, hhigh⟩
  · exact .inl (by push_cast; rfl)
  · refine .inr ⟨by omega, ?_, ?_⟩ <;> push_cast <;> linarith

/-- A sticky bit is kept by adding a number that has none. -/
theorem StickyOf.add_even (h : StickyOf m q) (hn : n % 2 = 0) : StickyOf (m + n) (q + n) := by
  rcases h with rfl | ⟨hodd, hlow, hhigh⟩
  · exact .inl (by push_cast; rfl)
  · refine .inr ⟨by omega, ?_, ?_⟩ <;> push_cast <;> linarith

theorem StickyOf.add (hm : StickyOf m q) (hn : StickyOf n r) (heven : m % 2 = 0 ∨ n % 2 = 0) :
    StickyOf (m + n) (q + r) := by
  rcases heven with hmEven | hnEven
  · rw [hm.eq_of_even hmEven, add_comm m, add_comm (m : ℚ)]
    exact hn.add_even hmEven
  · rw [hn.eq_of_even hnEven]
    exact hm.add_even hnEven

/-- An odd number and its even neighbours are on one side of 0, so the sign is not lost (R155). -/
theorem StickyOf.lt_zero_iff (h : StickyOf m q) : q < 0 ↔ m < 0 := by
  rcases h with rfl | ⟨hodd, hlow, hhigh⟩
  · exact Int.cast_lt_zero
  · constructor
    · intro hq
      have hm : (m : ℚ) < 1 := by linarith
      have : m < 1 := by exact_mod_cast hm
      omega
    · intro hm
      have hle : (m : ℚ) ≤ -1 := by exact_mod_cast Int.le_sub_one_of_lt hm
      linarith

/-- A zero is an exact one: what is dropped leaves an odd number (R154). -/
theorem StickyOf.eq_zero_iff (h : StickyOf m q) : q = 0 ↔ m = 0 := by
  have hpos := h.lt_zero_iff
  have hneg := h.neg.lt_zero_iff
  constructor
  · rintro rfl
    simp only [neg_zero, lt_irrefl, false_iff] at hpos hneg
    omega
  · rintro rfl
    simpa using h.eq_of_even (by decide)

theorem StickyOf.natAbs (h : StickyOf m q) : StickyOf m.natAbs |q| := by
  by_cases hm : m < 0
  · rw [abs_of_neg (h.lt_zero_iff.mpr hm), Int.ofNat_natAbs_of_nonpos hm.le]
    exact h.neg
  · rw [abs_of_nonneg (not_lt.mp (mt h.lt_zero_iff.mp hm)), Int.natAbs_of_nonneg (not_lt.mp hm)]
    exact h

end StickyOf

section StickyShift

theorem cast_srs_of_exact {m n : Nat} (h : m % 2 ^ n = 0) : (srs m n : ℚ) = m / 2 ^ n := by
  rw [srs_of_exact h, Nat.cast_div (Nat.dvd_of_mod_eq_zero h) (by positivity), Nat.cast_pow, Nat.cast_ofNat]

/-- The sticky right shift is named so for this (R16, R147). -/
theorem stickyOf_srs (m n : Nat) : StickyOf (srs m n) ((m : ℚ) / 2 ^ n) := by
  by_cases hdropped : m % 2 ^ n = 0
  · exact .inl (cast_srs_of_exact hdropped).symm
  · have hpow : (0 : ℚ) < 2 ^ n := by positivity
    have hsplit : ((2 ^ n * (m / 2 ^ n) + m % 2 ^ n : Nat) : ℚ) = m := by rw [Nat.div_add_mod]
    push_cast at hsplit
    have hrest : (0 : ℚ) < (m % 2 ^ n : Nat) := by exact_mod_cast Nat.pos_of_ne_zero hdropped
    have hrestLt : ((m % 2 ^ n : Nat) : ℚ) < 2 ^ n := by exact_mod_cast Nat.mod_lt m (Nat.two_pow_pos n)
    obtain ⟨hlow, hhigh⟩ := srs_bounds m n
    have hlow' : ((m / 2 ^ n : Nat) : ℚ) ≤ srs m n := by exact_mod_cast hlow
    have hhigh' : (srs m n : ℚ) ≤ (m / 2 ^ n : Nat) + 1 := by exact_mod_cast hhigh
    have hodd := srs_odd_of_dropped hdropped
    refine .inr ⟨by omega, ?_, ?_⟩
    · rw [lt_div_iff₀ hpow, Int.cast_natCast]
      nlinarith
    · rw [div_lt_iff₀ hpow, Int.cast_natCast]
      nlinarith

/-- The carry-out shift folds the bit it drops into the sticky bit, set or not before (R156). -/
theorem StickyOf.srs_one {m : Nat} {q : ℚ} (h : StickyOf m q) : StickyOf (srs m 1) (q / 2) := by
  rcases h with rfl | ⟨hodd, hlow, hhigh⟩
  · simpa using stickyOf_srs m 1
  · obtain ⟨j, rfl⟩ : ∃ j, m = 2 * j + 1 := ⟨m / 2, by omega⟩
    have hbounds := srs_bounds (2 * j + 1) 1
    have hkept : (2 * j + 1) / 2 ^ 1 = j := by omega
    rw [hkept] at hbounds
    have hsrsOdd : srs (2 * j + 1) 1 % 2 = 1 := srs_odd_of_dropped (by omega)
    have hsrsLow : (j : ℚ) ≤ srs (2 * j + 1) 1 := by exact_mod_cast hbounds.1
    have hsrsHigh : (srs (2 * j + 1) 1 : ℚ) ≤ j + 1 := by exact_mod_cast hbounds.2
    push_cast at hlow hhigh
    refine .inr ⟨by omega, ?_, ?_⟩ <;> push_cast <;> linarith

end StickyShift

/-- The mantissa `z` is right down to the guard bit, bit 2, and marks in its two lowest bits whether anything lies below
it: `z` is `q` itself, or both lie strictly between the same two multiples of 4. -/
def GuardTruncationOf (z : Nat) (q : ℚ) : Prop :=
  q = z ∨ (z % 4 ≠ 0 ∧ (4 * (z / 4) : Nat) < q ∧ q < (4 * (z / 4 + 1) : Nat))

section GuardTruncationOf

variable {z m k : Nat} {q : ℚ}

/-- A sticky bit at bit 0 or bit 1 is below the guard bit. -/
theorem StickyOf.guardTruncationOf_shift (h : StickyOf m q) (hk : m % 2 = 1 → k ≤ 1) :
    GuardTruncationOf (m * 2 ^ k) (q * 2 ^ k) := by
  rcases h with rfl | ⟨hodd, hlow, hhigh⟩
  · exact .inl (by push_cast; rfl)
  obtain ⟨j, rfl⟩ : ∃ j, m = 2 * j + 1 := ⟨m / 2, by omega⟩
  push_cast at hlow hhigh
  rcases Nat.le_one_iff_eq_zero_or_eq_one.mp (hk (by omega)) with rfl | rfl
  · have hfloor : 2 * ((2 * j + 1) / 4) ≤ j ∧ j ≤ 2 * ((2 * j + 1) / 4) + 1 := by omega
    have hfloorLow : 2 * (((2 * j + 1) / 4 : Nat) : ℚ) ≤ j := by exact_mod_cast hfloor.1
    have hfloorHigh : (j : ℚ) ≤ 2 * ((2 * j + 1) / 4 : Nat) + 1 := by exact_mod_cast hfloor.2
    rw [Nat.pow_zero, Nat.mul_one]
    refine .inr ⟨by omega, ?_, ?_⟩ <;> push_cast at hfloorLow hfloorHigh ⊢ <;> linarith
  · have hfloor : (2 * j + 1) * 2 ^ 1 / 4 = j := by omega
    refine .inr ⟨by omega, ?_, ?_⟩ <;> rw [hfloor] <;> push_cast <;> linarith

theorem GuardTruncationOf.floor_div_four (h : GuardTruncationOf z q) : ⌊q / 4⌋ = (z / 4 : Nat) := by
  rw [Int.floor_eq_iff, le_div_iff₀ (by norm_num), div_lt_iff₀ (by norm_num), Int.cast_natCast]
  rcases h with rfl | ⟨-, hlow, hhigh⟩
  · have hlow : z / 4 * 4 ≤ z := by omega
    have hhigh : z < (z / 4 + 1) * 4 := by omega
    exact ⟨by exact_mod_cast hlow, by exact_mod_cast hhigh⟩
  · push_cast at hlow hhigh ⊢
    constructor <;> linarith

theorem GuardTruncationOf.mod_four_ne_zero_iff (h : GuardTruncationOf z q) :
    z % 4 ≠ 0 ↔ ¬ ∃ k : Int, q = 4 * k := by
  rw [not_iff_not]
  rcases h with rfl | ⟨hmark, hlow, hhigh⟩
  · constructor
    · intro hz
      exact ⟨(z / 4 : Nat), by exact_mod_cast (Nat.mul_div_cancel' (Nat.dvd_of_mod_eq_zero hz)).symm⟩
    · rintro ⟨k, hk⟩
      have : (z : Int) = 4 * k := by exact_mod_cast hk
      omega
  · refine iff_of_false hmark ?_
    rintro ⟨k, rfl⟩
    push_cast at hlow hhigh
    have hlow' : (((z / 4 : Nat) : Int) : ℚ) < k := by rw [Int.cast_natCast]; linarith
    have hhigh' : (k : ℚ) < ((z / 4 : Nat) + 1 : Int) := by push_cast [-Int.natCast_ediv]; linarith
    have := Int.cast_lt.mp hlow'
    have := Int.cast_lt.mp hhigh'
    omega

end GuardTruncationOf

end Sys2Proof.Machine

/-! PROOFS. The exact sum of two finite operands in units of bit 0 at the common exponent (R17 of spec/00_scope.md, R161 of
spec/44_combine_normalize.md), and the raw sum as what a sticky bit leaves of it. -/

namespace Sys2Proof.Machine

/-- The extended mantissa of `f` moved to the common exponent of `f` and `g`, no bit dropped: what the Aligner would
answer with bits without end below bit 0. -/
def exactMantissa (c : Cfg) (f g : Fields) : ℚ :=
  extendedMantissa c f / 2 ^ (effectiveExponent g.exponent - effectiveExponent f.exponent)

/-- The combination of R152 with no bit dropped. -/
def exactSum (c : Cfg) (sub : Bool) (x y : Fields) : ℚ :=
  if sub then exactMantissa c x y - exactMantissa c y x else exactMantissa c x y + exactMantissa c y x

/-- The power of 2 that bit 0 of an extended mantissa stands for at the exponent `e` (R17, R161). -/
def bitZeroUnit (c : Cfg) (e : Int) : ℚ := 2 ^ (e - c.bias - (c.P - 1) - 3)

section RealValue

variable (c : Cfg)

theorem bitZeroUnit_pos (e : Int) : 0 < bitZeroUnit c e := zpow_pos two_pos _

theorem bitZeroUnit_div (e e' : Int) : bitZeroUnit c e / bitZeroUnit c e' = 2 ^ (e - e') := by
  rw [bitZeroUnit, bitZeroUnit, ← zpow_sub₀ two_ne_zero]
  congr 1
  ring

/-- The unit in which R17 counts the true mantissa is 8 of these: three bits were appended. -/
theorem bitZeroUnit_add (e d : Nat) :
    bitZeroUnit c (e + d : Nat) = (2 : ℚ) ^ ((e : Int) - c.bias - (c.P - 1)) * 2 ^ d / 8 := by
  have hshift : ((e + d : Nat) : Int) - c.bias - (c.P - 1) - 3 = (e - c.bias - (c.P - 1)) + d - 3 := by
    push_cast; ring
  rw [bitZeroUnit, hshift, zpow_sub₀ two_ne_zero, zpow_add₀ two_ne_zero, zpow_natCast]
  norm_num

theorem max_one_eq_effectiveExponent (e : Nat) : max e 1 = effectiveExponent e := by
  unfold effectiveExponent
  split <;> omega

/-- The value of a pattern from its extended mantissa, in units of bit 0 at any larger exponent as well as at its own. -/
theorem realValue_eq_exactMantissa (v : Nat) (g : Fields) :
    realValue c v = signFactor (decompose c v).sign * exactMantissa c (decompose c v) g *
      bitZeroUnit c (max (effectiveExponent (decompose c v).exponent) (effectiveExponent g.exponent) : Nat) := by
  have hmax (a b : Nat) : max a b = a + (b - a) := by omega
  rw [realValue, max_one_eq_effectiveExponent, exactMantissa, hmax, bitZeroUnit_add, extendedMantissa_eq]
  push_cast
  field_simp

theorem signFactor_mul_exactSum {xs ys : Nat} (hxs : xs ≤ 1) (hys : ys ≤ 1) (x y : Fields) :
    signFactor xs * exactSum c (subtracts xs ys) x y =
      signFactor xs * exactMantissa c x y + signFactor ys * exactMantissa c y x := by
  unfold exactSum subtracts
  interval_cases xs <;> interval_cases ys <;> simp [signFactor] <;> ring

/-- The exact sum of two patterns: the sign of `x`, the exact combination and the common exponent (R152, R153). -/
theorem realValue_add (x y : Nat) :
    realValue c x + realValue c y =
      signFactor (decompose c x).sign *
        exactSum c (subtracts (decompose c x).sign (decompose c y).sign) (decompose c x) (decompose c y) *
        bitZeroUnit c (align c (decompose c x) (decompose c y)).xExponent := by
  obtain ⟨hxs, -, -⟩ := decompose_inRange c x
  obtain ⟨hys, -, -⟩ := decompose_inRange c y
  rw [signFactor_mul_exactSum c hxs hys, align_xExponent, realValue_eq_exactMantissa c x (decompose c y),
    realValue_eq_exactMantissa c y (decompose c x), Nat.max_comm (effectiveExponent (decompose c y).exponent)]
  ring

theorem abs_signFactor (sg : Nat) : |(signFactor sg : ℚ)| = 1 := by
  unfold signFactor
  split <;> norm_num

/-- The exact magnitude in units of bit 0 at another exponent. -/
theorem abs_realValue_add_div (x y : Nat) (e : Int) :
    |realValue c x + realValue c y| / bitZeroUnit c e =
      |exactSum c (subtracts (decompose c x).sign (decompose c y).sign) (decompose c x) (decompose c y)| *
        2 ^ ((align c (decompose c x) (decompose c y)).xExponent - e) := by
  rw [realValue_add, abs_mul, abs_mul, abs_signFactor, one_mul, abs_of_pos (bitZeroUnit_pos c _), mul_div_assoc,
    bitZeroUnit_div]

end RealValue

section RawSum

variable {c : Cfg} {x y : Fields}

/-- With no bit above bit `P + 2` the clamp of the alignment distance changes nothing (R144). -/
theorem srs_min_clamp {m : Nat} (hm : m < 2 ^ (c.P + 3)) (n : Nat) : srs m (min n (c.P + 2)) = srs m n := by
  rcases Nat.le_total n (c.P + 2) with hle | hle
  · rw [Nat.min_eq_left hle]
  · rw [Nat.min_eq_right hle, (shiftClampIsExact c m n hm hle).1]

theorem align_xMantissa_eq_srs (hx : x.inRange c) (y : Fields) :
    (align c x y).xMantissa =
      srs (extendedMantissa c x) (effectiveExponent y.exponent - effectiveExponent x.exponent) := by
  obtain ⟨-, -, hfraction⟩ := hx
  rw [align_xMantissa, srs_min_clamp (extendedMantissa_lt c hfraction)]

theorem align_yMantissa_eq_srs (hy : y.inRange c) (x : Fields) :
    (align c x y).yMantissa =
      srs (extendedMantissa c y) (effectiveExponent x.exponent - effectiveExponent y.exponent) := by
  obtain ⟨-, -, hfraction⟩ := hy
  rw [align_yMantissa, srs_min_clamp (extendedMantissa_lt c hfraction)]

theorem stickyOf_align_xMantissa (hx : x.inRange c) (y : Fields) :
    StickyOf (align c x y).xMantissa (exactMantissa c x y) :=
  align_xMantissa_eq_srs hx y ▸ stickyOf_srs _ _

theorem stickyOf_align_yMantissa (hy : y.inRange c) (x : Fields) :
    StickyOf (align c x y).yMantissa (exactMantissa c y x) :=
  align_yMantissa_eq_srs hy x ▸ stickyOf_srs _ _

/-- The operand that is not shifted is a multiple of 8, so the sticky bit of the other is that of the raw sum. -/
theorem stickyOf_combine (sub : Bool) (hx : x.inRange c) (hy : y.inRange c) :
    StickyOf (combine sub (align c x y).xMantissa (align c x y).yMantissa) (exactSum c sub x y) := by
  have hxSticky := stickyOf_align_xMantissa hx y
  have hySticky := stickyOf_align_yMantissa hy x
  have heven := align_mod_eight c x y
  cases sub with
  | false => exact hxSticky.add hySticky (by omega)
  | true =>
    have hsticky := hxSticky.add hySticky.neg (by omega)
    rwa [← sub_eq_add_neg, ← sub_eq_add_neg] at hsticky

/-- When the unclamped distances drop no set bit the raw sum is the exact one. -/
theorem exactSum_eq_combine (sub : Bool) (hx : x.inRange c) (hy : y.inRange c)
    (hxKept : extendedMantissa c x % 2 ^ (effectiveExponent y.exponent - effectiveExponent x.exponent) = 0)
    (hyKept : extendedMantissa c y % 2 ^ (effectiveExponent x.exponent - effectiveExponent y.exponent) = 0) :
    exactSum c sub x y = combine sub (align c x y).xMantissa (align c x y).yMantissa := by
  have hxExact : exactMantissa c x y = (align c x y).xMantissa :=
    align_xMantissa_eq_srs hx y ▸ (cast_srs_of_exact hxKept).symm
  have hyExact : exactMantissa c y x = (align c x y).yMantissa :=
    align_yMantissa_eq_srs hy x ▸ (cast_srs_of_exact hyKept).symm
  rw [exactSum, hxExact, hyExact]
  cases sub
  · rw [combine_false]; push_cast; rfl
  · rw [combine_true]; push_cast; rfl

end RawSum

end Sys2Proof.Machine

/-! PROOFS. The post-condition of the Combiner/Normalizer (R153 to R161 of spec/44_combine_normalize.md): carry-out and
the loop as one change of the exponent that the mantissa follows. -/

namespace Sys2Proof.Machine

section LeftShift

variable {c : Cfg} {m : Nat}

/-- The single shift puts the highest set bit at the implied-bit position (R160). -/
theorem shifted_range (hm : m ≠ 0) (hlt : m < 2 ^ (c.P + 3)) :
    2 ^ (c.P + 2) ≤ m * 2 ^ (c.P + 2 - m.log2) ∧ m * 2 ^ (c.P + 2 - m.log2) < 2 ^ (c.P + 3) := by
  have hlog : m.log2 < c.P + 3 := (Nat.log2_lt hm).mpr hlt
  have hlow := Nat.mul_le_mul_right (2 ^ (c.P + 2 - m.log2)) (Nat.log2_self_le hm)
  have hhigh := Nat.mul_lt_mul_of_pos_right (Nat.lt_log2_self (n := m)) (Nat.two_pow_pos (c.P + 2 - m.log2))
  have hlowExp : m.log2 + (c.P + 2 - m.log2) = c.P + 2 := by omega
  have hhighExp : m.log2 + 1 + (c.P + 2 - m.log2) = c.P + 3 := by omega
  rw [← Nat.pow_add, hlowExp] at hlow
  rw [← Nat.pow_add, hhighExp] at hhigh
  exact ⟨hlow, hhigh⟩

theorem log2_carryMantissa_of_carry (hlt : m < 2 ^ (c.P + 4)) (h : m.testBit (c.P + 3) = true) :
    c.P + 2 ≤ (carryMantissa c m).log2 := by
  obtain ⟨hlow, -⟩ := carryMantissa_range_of_carry hlt h
  exact (Nat.le_log2 (((Nat.two_pow_pos _).trans_le hlow).ne')).mpr hlow

end LeftShift

section CarryExponent

variable {c : Cfg} {m : Nat} {q : ℚ}

theorem two_zpow_sub_carryExponent (c : Cfg) (m : Nat) (e : Int) :
    (2 : ℚ) ^ (e - carryExponent c m e) = if m.testBit (c.P + 3) then 2⁻¹ else 1 := by
  cases h : m.testBit (c.P + 3) with
  | true => rw [carryExponent_of_carry h, sub_add_cancel_left, zpow_neg_one]; rfl
  | false => rw [carryExponent_of_no_carry h, sub_self, zpow_zero]; rfl

/-- The carry-out shift keeps the sticky bit true of the exact number, at the exponent it moves to (R156). -/
theorem StickyOf.carryMantissa (h : StickyOf m q) (e : Int) :
    StickyOf (carryMantissa c m) (q * 2 ^ (e - carryExponent c m e)) := by
  rw [two_zpow_sub_carryExponent]
  cases hcarry : m.testBit (c.P + 3) with
  | true =>
    rw [carryMantissa_of_carry hcarry, if_pos rfl, ← div_eq_mul_inv]
    exact h.srs_one
  | false =>
    rw [carryMantissa_of_no_carry hcarry, if_neg Bool.false_ne_true, mul_one]
    exact h

/-- Unless it drops a set bit the carry-out shift is exact (log 26). -/
theorem carryMantissa_exact (heven : m.testBit (c.P + 3) = true → m % 2 = 0) (e : Int) :
    (carryMantissa c m : ℚ) = m * 2 ^ (e - carryExponent c m e) := by
  rw [two_zpow_sub_carryExponent]
  cases hcarry : m.testBit (c.P + 3) with
  | true =>
    have hmod : m % 2 ^ 1 = 0 := heven hcarry
    rw [carryMantissa_of_carry hcarry, cast_srs_of_exact hmod, if_pos rfl, pow_one, div_eq_mul_inv]
  | false => rw [carryMantissa_of_no_carry hcarry, if_neg Bool.false_ne_true, mul_one]

end CarryExponent

section ResultSign

variable {xs : Nat} {raw : Int} {q : ℚ}

theorem resultSign_le_one (hxs : xs ≤ 1) (raw : Int) : resultSign xs raw ≤ 1 := by
  unfold resultSign
  split <;> omega

/-- The sign of `x`, flipped with a negative raw sum, is the sign of the exact sum (R153, R155). -/
theorem resultSign_eq_one_iff (hxs : xs ≤ 1) (h : StickyOf raw q) (hne : raw ≠ 0) :
    resultSign xs raw = 1 ↔ signFactor xs * q < 0 := by
  have hsign := h.lt_zero_iff
  have hq : q ≠ 0 := mt h.eq_zero_iff.mp hne
  have hflip : resultSign xs raw = if q < 0 then 1 - xs else xs := if_congr hsign.symm rfl rfl
  rw [hflip]
  interval_cases xs
  · by_cases hneg : q < 0 <;> simp [signFactor, hneg]
  · by_cases hneg : q < 0
    · simp [signFactor, hneg, hneg.le]
    · simp [signFactor, hneg, lt_of_le_of_ne (not_lt.mp hneg) hq.symm]

end ResultSign

section Stage

variable {c : Cfg} {x y : Fields} {w : Working}

/-- The places that the loop moves the mantissa of a raw sum (R159, R160). -/
abbrev shiftCount (c : Cfg) (sub : Bool) (x y : Fields) : Nat :=
  c.P + 2 - (carryMantissa c (rawMagnitude c sub x y)).log2

/-- The loop is entered with at most the sticky bit out of place, so an inexact raw sum moves by one place or none. -/
theorem shiftCount_le_one_of_odd {sub : Bool} (hx : x.isFinite c) (hy : y.isFinite c)
    (hodd : carryMantissa c (rawMagnitude c sub x y) % 2 = 1) : shiftCount c sub x y ≤ 1 := by
  cases hcarry : (rawMagnitude c sub x y).testBit (c.P + 3) with
  | true =>
    have := log2_carryMantissa_of_carry (rawMagnitude_lt sub hx hy) hcarry
    rw [shiftCount]
    omega
  | false =>
    rw [carryMantissa_of_no_carry hcarry] at hodd
    have hle : 2 ^ (c.P + 1) ≤ rawMagnitude c sub x y := by
      have := rawMagnitude_mod_four_or_two_pow_le sub hx hy
      omega
    have hlog := (Nat.le_log2 (by omega)).mpr hle
    rw [shiftCount, carryMantissa_of_no_carry hcarry]
    omega

/-- The least exponent is that of two subnormals whose raw sum is the lowest bit an operand has (R159). -/
theorem two_sub_P_le_exponent {sub : Bool} (hx : x.isFinite c) (hy : y.isFinite c)
    (hne : rawMagnitude c sub x y ≠ 0) :
    2 - (c.P : Int) ≤
      carryExponent c (rawMagnitude c sub x y) (align c x y).xExponent - shiftCount c sub x y := by
  have hxPos := effectiveExponent_pos x.exponent
  have hyPos := effectiveExponent_pos y.exponent
  have hexponent := align_xExponent c x y
  have hP := c.two_le_P
  cases hcarry : (rawMagnitude c sub x y).testBit (c.P + 3) with
  | true =>
    have := log2_carryMantissa_of_carry (rawMagnitude_lt sub hx hy) hcarry
    rw [carryExponent_of_carry hcarry, shiftCount]
    omega
  | false =>
    rw [carryExponent_of_no_carry hcarry, shiftCount, carryMantissa_of_no_carry hcarry]
    by_cases heq : effectiveExponent x.exponent = effectiveExponent y.exponent
    · have hmod := rawMagnitude_mod_eight c sub heq
      have hlog : 3 ≤ (rawMagnitude c sub x y).log2 := (Nat.le_log2 hne).mpr (by omega)
      omega
    · have hlog : 2 ≤ (rawMagnitude c sub x y).log2 := (Nat.le_log2 hne).mpr (four_le_rawMagnitude hx hy hne)
      omega

/-- The stage's answer with the loop done in one shift. -/
theorem combineNormalize_eq_shifted (hx : x.isFinite c) (hy : y.isFinite c)
    (h : combineNormalize c x.sign y.sign (align c x y) = some w) :
    rawMagnitude c (subtracts x.sign y.sign) x y ≠ 0 ∧
    w.sign = resultSign x.sign (combine (subtracts x.sign y.sign) (align c x y).xMantissa (align c x y).yMantissa) ∧
    w.mantissa = carryMantissa c (rawMagnitude c (subtracts x.sign y.sign) x y) *
      2 ^ shiftCount c (subtracts x.sign y.sign) x y ∧
    w.exponent = carryExponent c (rawMagnitude c (subtracts x.sign y.sign) x y) (align c x y).xExponent -
      shiftCount c (subtracts x.sign y.sign) x y := by
  obtain ⟨hraw, hsign, hloop⟩ := combineNormalize_eq_some h
  have hne := Int.natAbs_ne_zero.mpr hraw
  have hfour := four_le_carryMantissa hx hy hne
  have hlt := carryMantissa_lt (rawMagnitude_lt (subtracts x.sign y.sign) hx hy)
  rw [normalisationLoopIsOneShift c _ _ (by omega) hlt, normOnce, Prod.mk.injEq, Nat.shiftLeft_eq] at hloop
  exact ⟨hne, hsign, hloop⟩

/-- The ranges of R161. -/
theorem combineNormalize_normalised (hx : x.isFinite c) (hy : y.isFinite c)
    (h : combineNormalize c x.sign y.sign (align c x y) = some w) : w.normalised c := by
  obtain ⟨hne, hsign, hmantissa, hexponent⟩ := combineNormalize_eq_shifted hx hy h
  have hfour := four_le_carryMantissa hx hy hne
  have hlt := carryMantissa_lt (rawMagnitude_lt (subtracts x.sign y.sign) hx hy)
  obtain ⟨hlow, hhigh⟩ := shifted_range (by omega) hlt
  refine ⟨?sign, hmantissa ▸ hlow, hmantissa ▸ hhigh, hexponent ▸ two_sub_P_le_exponent hx hy hne, ?upper⟩
  case sign =>
    obtain ⟨⟨hxs, -, -⟩, -⟩ := hx
    rw [hsign]
    exact resultSign_le_one hxs _
  case upper =>
    have hle := align_xExponent_le hx hy
    rw [hexponent, carryExponent]
    split <;> omega

/-- A number counted at an exponent lower by `k` is shifted left by `k`. -/
theorem mul_two_zpow_sub_sub (q : ℚ) (e e' : Int) (k : Nat) : q * 2 ^ (e - (e' - k)) = q * 2 ^ (e - e') * 2 ^ k := by
  have hsplit : e - (e' - k) = (e - e') + k := by omega
  rw [hsplit, zpow_add₀ two_ne_zero, zpow_natCast, mul_assoc]

theorem combineNormalize_guardTruncationOf (hx : x.isFinite c) (hy : y.isFinite c)
    (h : combineNormalize c x.sign y.sign (align c x y) = some w) :
    GuardTruncationOf w.mantissa
      (|exactSum c (subtracts x.sign y.sign) x y| * 2 ^ ((align c x y).xExponent - w.exponent)) := by
  obtain ⟨-, -, hmantissa, hexponent⟩ := combineNormalize_eq_shifted hx hy h
  have hsticky := (stickyOf_combine (subtracts x.sign y.sign) hx.1 hy.1).natAbs
  rw [hmantissa, hexponent, mul_two_zpow_sub_sub]
  exact (hsticky.carryMantissa _).guardTruncationOf_shift (shiftCount_le_one_of_odd hx hy)

theorem combineNormalize_exact (hx : x.isFinite c) (hy : y.isFinite c)
    (h : combineNormalize c x.sign y.sign (align c x y) = some w)
    (hxKept : extendedMantissa c x % 2 ^ (effectiveExponent y.exponent - effectiveExponent x.exponent) = 0)
    (hyKept : extendedMantissa c y % 2 ^ (effectiveExponent x.exponent - effectiveExponent y.exponent) = 0)
    (hcarryKept : (rawMagnitude c (subtracts x.sign y.sign) x y).testBit (c.P + 3) = true →
      rawMagnitude c (subtracts x.sign y.sign) x y % 2 = 0) :
    (w.mantissa : ℚ) = |exactSum c (subtracts x.sign y.sign) x y| * 2 ^ ((align c x y).xExponent - w.exponent) := by
  obtain ⟨-, -, hmantissa, hexponent⟩ := combineNormalize_eq_shifted hx hy h
  rw [hmantissa, hexponent, mul_two_zpow_sub_sub, exactSum_eq_combine _ hx.1 hy.1 hxKept hyKept,
    Nat.cast_mul, carryMantissa_exact hcarryKept (align c x y).xExponent, Nat.cast_natAbs, Int.cast_abs]
  push_cast
  rfl

end Stage

section PackedOperands

variable {c : Cfg} {x y : Nat} {w : Working}

theorem decompose_isFinite (h : FinitePattern c x) : (decompose c x).isFinite c :=
  ⟨decompose_inRange c x, decompose_exponent c x ▸ h⟩

theorem normalisedSum_sign_eq_one_iff (h : normalisedSum c x y = some w) :
    w.sign = 1 ↔ realValue c x + realValue c y < 0 := by
  obtain ⟨hraw, hsign, -⟩ := combineNormalize_eq_some h
  have hx := decompose_inRange c x
  have ⟨hxs, _, _⟩ := hx
  have hunit := bitZeroUnit_pos c (align c (decompose c x) (decompose c y)).xExponent
  rw [hsign, resultSign_eq_one_iff hxs (stickyOf_combine _ hx (decompose_inRange c y)) hraw, realValue_add,
    ← not_le, ← not_le, mul_nonneg_iff_of_pos_right hunit]

end PackedOperands

theorem toNat_shiftDistance (x y : Fields) :
    (shiftDistance x y).toNat = effectiveExponent x.exponent - effectiveExponent y.exponent := by
  unfold shiftDistance; omega

/-- Settles O40: the aligned operands, their combination, the carry-out shift and the loop each keep what the sticky bit
stands for, and the loop moves a sticky bit that is set by one place at most. -/
theorem normalisedMantissaHoldsTheExactSum : Obligations.NormalisedMantissaHoldsTheExactSum := by
  intro c x y w A _ _ hxFin hyFin h hA
  have hx := decompose_isFinite hxFin
  have hy := decompose_isFinite hyFin
  have hA' := hA.trans (abs_realValue_add_div c x y w.exponent)
  have htrunc := combineNormalize_guardTruncationOf hx hy h
  rw [← hA'] at htrunc
  refine ⟨combineNormalize_normalised hx hy h, normalisedSum_sign_eq_one_iff h, htrunc.floor_div_four,
    htrunc.mod_four_ne_zero_iff, fun hxKept hyKept hcarryKept => ?_⟩
  rw [← shiftDistance_swap, toNat_shiftDistance] at hxKept
  rw [toNat_shiftDistance] at hyKept
  rw [hA']
  exact combineNormalize_exact hx hy h hxKept hyKept hcarryKept

end Sys2Proof.Machine

/-! PROOFS. Zero answers of ADD (R154, R179, R191): a non-zero raw sum keeps a set bit through the Rounder and final
assembly. -/

namespace Sys2Proof.Machine

section Rounder

variable {c : Cfg} {w : Working}

theorem roundIncrement_bounds (c : Cfg) (w : Working) :
    w.mantissa ≤ roundIncrement c w ∧ roundIncrement c w ≤ w.mantissa + 8 := by
  rcases roundIncrement_cases c w with ⟨-, h⟩ | ⟨-, h⟩ <;> omega

/-- One unit of `LSB` more reaches the next power of 2 at most (R178). -/
theorem roundIncrement_shift_range (hw : w.normalised c) :
    2 ^ (c.P - 1) ≤ roundIncrement c w >>> 3 ∧ roundIncrement c w >>> 3 ≤ 2 ^ c.P := by
  obtain ⟨-, hlow, hhigh, -, -⟩ := hw
  have hbounds := roundIncrement_bounds c w
  have hP := c.two_pow_P
  rw [Nat.pow_add] at hlow hhigh
  rw [Nat.shiftRight_eq_div_pow]
  omega

/-- The implied bit is set after the Rounder, carry or not (R179). -/
theorem roundStage_final (hw : w.normalised c) : (roundStage c w).final c := by
  obtain ⟨hlow, hhigh⟩ := roundIncrement_shift_range hw
  obtain ⟨hsign, -, -, hexpLow, hexpHigh⟩ := hw
  have hP := c.two_pow_P
  have hpos := Nat.two_pow_pos (c.P - 1)
  have hset := testBit_of_lt_pow_succ (m := roundIncrement c w >>> 3) (k := c.P) (by rw [Nat.pow_succ]; omega)
  unfold roundStage
  by_cases hcarry : (roundIncrement c w >>> 3).testBit c.P = true
  · rw [if_pos hcarry]
    have hone : (roundIncrement c w >>> 3) >>> 1 = 2 ^ (c.P - 1) := by
      have := hset.mp hcarry
      rw [Nat.shiftRight_eq_div_pow _ 1]
      omega
    refine ⟨hsign, hone.ge, hone ▸ ?_, ?_, ?_⟩ <;> dsimp only <;> omega
  · rw [if_neg hcarry]
    have hlt := mt hset.mpr hcarry
    refine ⟨hsign, hlow, ?_, ?_, ?_⟩ <;> dsimp only <;> omega

end Rounder

section FinalAssembly

variable {c : Cfg} {w : Working}

@[simp] theorem compose_zero (c : Cfg) : compose c 0 0 0 = 0 := by
  simp [compose_eq]

theorem compose_ne_zero_of_exponent {e : Nat} (sg f : Nat) (hpos : e ≠ 0) (hlt : e < 2 ^ c.E) :
    compose c sg e f ≠ 0 := by
  intro h
  have hfield := exponentField_compose c sg e f
  rw [h, exponentField, Nat.zero_div, Nat.zero_mod, Nat.mod_eq_of_lt hlt] at hfield
  exact hpos hfield.symm

theorem compose_ne_zero_of_fraction {f : Nat} (sg e : Nat) (hpos : f ≠ 0) (hlt : f < 2 ^ (c.P - 1)) :
    compose c sg e f ≠ 0 := by
  intro h
  have hfield := fractionField_compose c sg e f
  rw [h, fractionField, Nat.zero_mod, Nat.mod_eq_of_lt hlt] at hfield
  exact hpos hfield.symm

/-- The denormalising shift is by `P - 1` at most, and the implied bit is `P - 1` places up (R190, R191). -/
theorem denormalised_range (hw : w.final c) (hexp : w.exponent ≤ 0) :
    w.mantissa >>> (1 - w.exponent).toNat ≠ 0 ∧ w.mantissa >>> (1 - w.exponent).toNat < 2 ^ (c.P - 1) := by
  obtain ⟨-, hlow, hhigh, hexpLow, -⟩ := hw
  have hleast : 2 ^ (1 - w.exponent).toNat ≤ w.mantissa :=
    (Nat.pow_le_pow_right Nat.two_pos (by omega)).trans hlow
  have hwide : 2 ^ c.P ≤ 2 ^ (1 - w.exponent).toNat * 2 ^ (c.P - 1) := by
    rw [← Nat.pow_add]
    exact Nat.pow_le_pow_right Nat.two_pos (by omega)
  rw [Nat.shiftRight_eq_div_pow]
  exact ⟨(Nat.div_pos hleast (Nat.two_pow_pos _)).ne', Nat.div_lt_of_lt_mul (hhigh.trans_le hwide)⟩

theorem assemble_ne_zero (hw : w.final c) : assemble c w ≠ 0 := by
  have hE := c.four_le_two_pow_E
  unfold assemble
  split
  next => exact compose_ne_zero_of_exponent _ _ c.allOnes_ne_zero (by unfold Cfg.expAllOnes; omega)
  next hfinite =>
    unfold Cfg.expAllOnes at hfinite
    split
    next hnormal => exact compose_ne_zero_of_exponent _ _ (by omega) (by omega)
    next hlow =>
      obtain ⟨hpos, hlt⟩ := denormalised_range hw (by omega)
      exact compose_ne_zero_of_fraction _ _ hpos hlt

end FinalAssembly

section ZeroSum

variable {c : Cfg}

/-- Only the zero result of R154 is the all-zero pattern. -/
theorem addFinite_eq_zero_iff {x y : Fields} (hx : x.isFinite c) (hy : y.isFinite c) :
    addFinite c x y = 0 ↔ combineNormalize c x.sign y.sign (align c x y) = none := by
  unfold addFinite
  cases h : combineNormalize c x.sign y.sign (align c x y) with
  | none => simp
  | some w => simpa using assemble_ne_zero (roundStage_final (combineNormalize_normalised hx hy h))

theorem rawSum_eq_zero_iff (c : Cfg) (x y : Nat) : rawSum c x y = 0 ↔ realValue c x + realValue c y = 0 := by
  have hsticky := stickyOf_combine (subtracts (decompose c x).sign (decompose c y).sign) (decompose_inRange c x)
    (decompose_inRange c y)
  have hsignFactor : (signFactor (decompose c x).sign : ℚ) ≠ 0 :=
    abs_ne_zero.mp (abs_signFactor _ ▸ one_ne_zero)
  rw [realValue_add, mul_eq_zero_iff_right (bitZeroUnit_pos c _).ne', mul_eq_zero_iff_left hsignFactor,
    hsticky.eq_zero_iff]

theorem response_add_of_finitePattern {x y : Nat} (hx : FinitePattern c x) (hy : FinitePattern c y)
    (hxFits : Fits x c.W) (hyFits : Fits y c.W) :
    response c (.add x y) = addFinite c (decompose c x) (decompose c y) := by
  have hnone : shortCircuit c x y = none := by
    rw [shortCircuit_eq_ite]
    simp [not_nanPattern_of_finitePattern hx, not_nanPattern_of_finitePattern hy, not_infPattern_of_finitePattern hx,
      not_infPattern_of_finitePattern hy]
  rw [response, addResponse, operand_of_fits hxFits, operand_of_fits hyFits, addPacked_of_finite hnone]

end ZeroSum

/-- Settles O26: the zero result is that of a zero raw sum, which is an exact zero, and every other sum keeps its highest
set bit in the answer. -/
theorem addIsPlusZeroExactlyOnZeroSums : Obligations.AddIsPlusZeroExactlyOnZeroSums := by
  intro c x y hxFits hyFits hx hy
  rw [response_add_of_finitePattern hx hy hxFits hyFits,
    addFinite_eq_zero_iff (decompose_isFinite hx) (decompose_isFinite hy), combineNormalize_eq_none]
  exact rawSum_eq_zero_iff c x y

end Sys2Proof.Machine

/-! PROOFS. The Rounder (R170 to R181 of spec/45_round.md): what each policy decides from the dropped eighth of the
mantissa, and what the increment and the carry leave. -/

namespace Sys2Proof.Machine

section Selector

variable (sign m : Nat)

theorem roundUp_rne_iff :
    roundUp .rne sign (roundBits m) = true ↔ 4 < m % 8 ∨ (m % 8 = 4 ∧ (m / 8) % 2 = 1) := by
  rw [roundBits_eq]
  simp only [roundUp, Bool.and_eq_true, Bool.or_eq_true, decide_eq_true_eq]
  omega

/-- `G`, `R` or `S` is set exactly when the dropped eighth is not zero (R173, R174). -/
theorem roundBits_any_iff :
    ((roundBits m).g || (roundBits m).r || (roundBits m).s) = true ↔ m % 8 ≠ 0 := by
  rw [roundBits_eq]
  simp only [Bool.or_eq_true, decide_eq_true_eq]
  omega

theorem roundUp_rdn_iff : roundUp .rdn sign (roundBits m) = true ↔ sign = 1 ∧ m % 8 ≠ 0 := by
  rw [roundUp, Bool.and_eq_true, beq_iff_eq, roundBits_any_iff]

theorem roundUp_rup_iff : roundUp .rup sign (roundBits m) = true ↔ sign = 0 ∧ m % 8 ≠ 0 := by
  rw [roundUp, Bool.and_eq_true, beq_iff_eq, roundBits_any_iff]

end Selector

/-- Settles O41: a row fixes `G R S`, and each column the one more bit that its policy reads. -/
theorem roundUpTruthTable : Obligations.RoundUpTruthTable := by
  intro lsb sign _ row hrow
  fin_cases hrow <;> rfl

/-- Settles O42, the three low bits read as the number they are. -/
theorem roundUpDecidesFromTheDroppedPart : Obligations.RoundUpDecidesFromTheDroppedPart :=
  fun sign m => ⟨roundUp_rne_iff sign m, roundUp_rdn_iff sign m, roundUp_rup_iff sign m, rfl⟩

/-- Settles O43: the increment reaches the next power of 2 at most, and the carry shift then leaves the implied bit. -/
theorem rounderLeavesImpliedBitSet : Obligations.RounderLeavesImpliedBitSet :=
  fun _ _ => roundStage_final

section Carry

variable {c : Cfg} {w : Working}

/-- One unit of `LSB` is 8, so the retained part grows by one or not at all (R176, R177). -/
theorem roundIncrement_div_eight_cases (c : Cfg) (w : Working) :
    (roundUp c.rm w.sign (roundBits w.mantissa) = true ∧ roundIncrement c w / 8 = w.mantissa / 8 + 1) ∨
    (roundUp c.rm w.sign (roundBits w.mantissa) = false ∧ roundIncrement c w / 8 = w.mantissa / 8) := by
  rcases roundIncrement_cases c w with ⟨hup, h⟩ | ⟨hup, h⟩
  · exact .inl ⟨hup, by omega⟩
  · exact .inr ⟨hup, by omega⟩

/-- The retained part of a normalised mantissa has `P` bits, the highest of them set. -/
theorem div_eight_range_of_normalised (hw : w.normalised c) :
    2 ^ (c.P - 1) ≤ w.mantissa / 8 ∧ w.mantissa / 8 < 2 ^ c.P := by
  obtain ⟨-, hlow, hhigh, -, -⟩ := hw
  have hP := c.two_pow_P
  rw [Nat.pow_add] at hlow hhigh
  omega

/-- The incremented mantissa reaches bit `P` only at the power of 2 itself (R178). -/
theorem carry_iff_eq_two_pow (hw : w.normalised c) :
    (roundIncrement c w >>> 3).testBit c.P = true ↔ roundIncrement c w / 8 = 2 ^ c.P := by
  obtain ⟨-, hhigh⟩ := roundIncrement_shift_range hw
  have hpos := Nat.two_pow_pos c.P
  rw [testBit_of_lt_pow_succ (by rw [Nat.pow_succ]; omega), ← Nat.shiftRight_eq_div_pow _ 3]
  omega

theorem carry_iff_roundUp_of_allOnes (hw : w.normalised c) :
    (roundIncrement c w >>> 3).testBit c.P = true ↔
      roundUp c.rm w.sign (roundBits w.mantissa) = true ∧ w.mantissa / 8 = 2 ^ c.P - 1 := by
  obtain ⟨-, hhigh⟩ := div_eight_range_of_normalised hw
  rw [carry_iff_eq_two_pow hw]
  rcases roundIncrement_div_eight_cases c w with ⟨hup, h⟩ | ⟨hup, h⟩
  · simp only [hup, true_and]
    omega
  · simp only [hup, Bool.false_eq_true, false_and, iff_false]
    omega

theorem roundStage_of_carry (hw : w.normalised c) (hcarry : (roundIncrement c w >>> 3).testBit c.P = true) :
    roundStage c w = { sign := w.sign, exponent := w.exponent + 1, mantissa := 2 ^ (c.P - 1) } := by
  have hmantissa : (roundIncrement c w >>> 3) >>> 1 = 2 ^ (c.P - 1) := by
    have hpower := (carry_iff_eq_two_pow hw).mp hcarry
    have hP := c.two_pow_P
    rw [Nat.shiftRight_eq_div_pow, Nat.shiftRight_eq_div_pow]
    omega
  rw [roundStage, if_pos hcarry, hmantissa]

theorem roundStage_of_no_carry (hcarry : (roundIncrement c w >>> 3).testBit c.P = false) :
    roundStage c w = { sign := w.sign, exponent := w.exponent, mantissa := roundIncrement c w / 8 } := by
  rw [roundStage, if_neg (by simp [hcarry]), Nat.shiftRight_eq_div_pow]

end Carry

/-- Settles O44: bit `P` is set only in the power of 2 that an increment of all ones gives. -/
theorem roundingCarryEntersTheNextBinade : Obligations.RoundingCarryEntersTheNextBinade :=
  fun _ _ hw => ⟨carry_iff_roundUp_of_allOnes hw, roundStage_of_carry hw, roundStage_of_no_carry⟩

end Sys2Proof.Machine

/-! PROOFS. Values in whole units of the smallest subnormal (R17 of spec/00_scope.md, R191 of
spec/46_assemble_add.md): the exact sum that the normalised mantissa stands for, and the value final assembly packs. -/

namespace Sys2Proof.Machine

section Units

variable (c : Cfg)

theorem signFactor_zero : signFactor 0 = 1 := rfl

theorem signFactor_one : signFactor 1 = -1 := rfl

theorem natAbs_signFactor (sg : Nat) : (signFactor sg).natAbs = 1 := by
  unfold signFactor
  split <;> rfl

theorem natAbs_units (v : Nat) :
    (units c v).natAbs = trueMantissa c (decompose c v).exponent (decompose c v).fraction *
      2 ^ (effectiveExponent (decompose c v).exponent - 1) := by
  rw [units, Int.natAbs_mul, Int.natAbs_mul, natAbs_signFactor, Int.natAbs_pow, Int.natAbs_natCast, Nat.one_mul]
  rfl

theorem trueMantissa_decompose_lt (v : Nat) :
    trueMantissa c (decompose c v).exponent (decompose c v).fraction < 2 ^ c.P :=
  have ⟨_, _, hfraction⟩ := decompose_inRange c v
  trueMantissa_lt c _ hfraction

/-- The smallest subnormal is what bit 0 of an extended mantissa counts at the exponent 4: three bits are appended to the
mantissa, and the least exponent is 1. -/
theorem realValue_eq_units (v : Nat) : realValue c v = units c v * bitZeroUnit c 4 := by
  have hpos := effectiveExponent_pos (decompose c v).exponent
  have hexponent : (effectiveExponent (decompose c v).exponent : Int) - c.bias - (c.P - 1) =
      (effectiveExponent (decompose c v).exponent - 1 : Nat) + (4 - c.bias - (c.P - 1) - 3) := by omega
  rw [realValue, max_one_eq_effectiveExponent, hexponent, zpow_add₀ two_ne_zero, zpow_natCast, units, bitZeroUnit]
  push_cast
  ring

theorem realValue_add_eq_units (x y : Nat) :
    realValue c x + realValue c y = (units c x + units c y : Int) * bitZeroUnit c 4 := by
  rw [realValue_eq_units, realValue_eq_units]
  push_cast
  ring

/-- The value of packed fields that are within their widths. -/
theorem units_compose {sg e f : Nat} (hs : sg ≤ 1) (he : e < 2 ^ c.E) (hf : f < 2 ^ (c.P - 1)) :
    units c (compose c sg e f) =
      signFactor sg * ((if e = 0 then f else 2 ^ (c.P - 1) + f) * 2 ^ (effectiveExponent e - 1) : Nat) := by
  rw [units, decompose_compose_of_inRange hs he hf, trueMantissa_eq c e hf]
  push_cast
  ring

end Units

section NormalisedUnits

variable {c : Cfg} {x y : Nat} {w : Working}

theorem normalisedSum_eq_none_iff_units : normalisedSum c x y = none ↔ units c x + units c y = 0 := by
  rw [combineNormalize_eq_none, rawSum_eq_zero_iff, realValue_add_eq_units,
    mul_eq_zero_iff_right (bitZeroUnit_pos c 4).ne', Int.cast_eq_zero]

theorem normalisedSum_normalised (hx : FinitePattern c x) (hy : FinitePattern c y) (h : normalisedSum c x y = some w) :
    w.normalised c :=
  combineNormalize_normalised (decompose_isFinite hx) (decompose_isFinite hy) h

theorem units_add_eq_signFactor_mul (h : normalisedSum c x y = some w) :
    units c x + units c y = signFactor w.sign * (units c x + units c y).natAbs := by
  have hsign := normalisedSum_sign_eq_one_iff h
  rw [realValue_add_eq_units, ← not_le, mul_nonneg_iff_of_pos_right (bitZeroUnit_pos c 4), not_le,
    Int.cast_lt_zero] at hsign
  unfold signFactor
  split <;> omega

theorem normalisedSum_guardTruncationOf (hx : FinitePattern c x) (hy : FinitePattern c y)
    (h : normalisedSum c x y = some w) :
    GuardTruncationOf w.mantissa ((units c x + units c y).natAbs * 2 ^ (4 - w.exponent)) := by
  have htrunc := combineNormalize_guardTruncationOf (decompose_isFinite hx) (decompose_isFinite hy) h
  rwa [← abs_realValue_add_div, realValue_add_eq_units, abs_mul, abs_of_pos (bitZeroUnit_pos c 4), mul_div_assoc,
    bitZeroUnit_div, ← Int.cast_abs, Int.abs_eq_natAbs, Int.cast_natCast] at htrunc

/-- An exact number that is a multiple of 4 has nothing below the guard bit to lose. -/
theorem GuardTruncationOf.eq_of_four_mul {z k : Nat} (h : GuardTruncationOf z (4 * k : Nat)) : z = 4 * k := by
  rcases h with heq | ⟨-, hlow, hhigh⟩
  · exact_mod_cast heq.symm
  · have hlow' : 4 * (z / 4) < 4 * k := by exact_mod_cast hlow
    have hhigh' : 4 * k < 4 * (z / 4 + 1) := by exact_mod_cast hhigh
    omega

/-- Every sum is a whole number of smallest subnormals, so below the normal range the mantissa holds it exactly, with
zeros below (R191). -/
theorem mantissa_eq_of_exponent_nonpos (hx : FinitePattern c x) (hy : FinitePattern c y)
    (h : normalisedSum c x y = some w) (hlow : w.exponent ≤ 0) :
    w.mantissa = 8 * ((units c x + units c y).natAbs * 2 ^ (1 - w.exponent).toNat) := by
  have htrunc := normalisedSum_guardTruncationOf hx hy h
  have hshift : 4 - w.exponent = ((3 + (1 - w.exponent).toNat : Nat) : Int) := by omega
  have hfour : ((units c x + units c y).natAbs : ℚ) * 2 ^ (4 - w.exponent) =
      (4 * (2 * ((units c x + units c y).natAbs * 2 ^ (1 - w.exponent).toNat)) : Nat) := by
    rw [hshift, zpow_natCast, pow_add]
    push_cast
    ring
  rw [hfour] at htrunc
  have := htrunc.eq_of_four_mul
  omega

end NormalisedUnits

section AssembledUnits

variable {c : Cfg} {w : Working}

theorem infPattern_assemble (h : 2 ^ c.E - 1 ≤ w.exponent) : InfPattern c (assemble c w) := by
  have hE := c.four_le_two_pow_E
  have hlarge : (c.expAllOnes : Int) ≤ w.exponent := by
    rw [Cfg.expAllOnes, Nat.cast_sub (by omega)]
    exact_mod_cast h
  rw [assemble, if_pos hlarge]
  exact infPattern_compose w.sign

theorem exponent_lt_of_finitePattern (h : FinitePattern c (assemble c w)) : w.exponent < 2 ^ c.E - 1 :=
  not_le.mp fun hlarge => not_infPattern_of_finitePattern h (infPattern_assemble hlarge)

/-- In the storable range the implied bit is dropped from the mantissa by taking its low `P - 1` bits (R189). -/
theorem assemble_of_normal {e : Nat} (hw : w.final c) (hexponent : w.exponent = e) (hpos : 1 ≤ e)
    (hlt : e < 2 ^ c.E - 1) : assemble c w = compose c w.sign e (w.mantissa - 2 ^ (c.P - 1)) := by
  obtain ⟨-, hlow, hhigh, -, -⟩ := hw
  have hP := c.two_pow_P
  have hsmall : ¬ (c.expAllOnes : Int) ≤ w.exponent := by
    rw [Cfg.expAllOnes, hexponent]
    omega
  have hfraction : w.mantissa % 2 ^ (c.P - 1) = (w.mantissa - 2 ^ (c.P - 1)) % 2 ^ (c.P - 1) :=
    Nat.mod_eq_sub_mod hlow
  rw [assemble, if_neg hsmall, if_pos (by omega), hexponent, Int.toNat_natCast, compose_eq, hfraction, ← compose_eq]

theorem assemble_of_nonpos (hexponent : w.exponent ≤ 0) :
    assemble c w = compose c w.sign 0 (w.mantissa >>> (1 - w.exponent).toNat) := by
  have hones : c.expAllOnes ≠ 0 := c.allOnes_ne_zero
  rw [assemble, if_neg (by omega), if_neg (by omega)]

theorem finitePattern_compose {sg e f : Nat} (h : e < 2 ^ c.E - 1) : FinitePattern c (compose c sg e f) := by
  rw [FinitePattern, exponentField_compose, Nat.mod_eq_of_lt (by omega)]
  exact h.ne

theorem finitePattern_assemble (hw : w.final c) (h : w.exponent < 2 ^ c.E - 1) : FinitePattern c (assemble c w) := by
  have hE := c.four_le_two_pow_E
  rcases le_or_gt w.exponent 0 with hlow | hpos
  · rw [assemble_of_nonpos hlow]
    exact finitePattern_compose (by omega)
  · obtain ⟨e, he⟩ := Int.eq_ofNat_of_zero_le hpos.le
    have hlt : e < 2 ^ c.E - 1 := by
      have : (e : Int) + 1 < (2 ^ c.E : Nat) := by push_cast; omega
      omega
    rw [assemble_of_normal hw he (by omega) hlt]
    exact finitePattern_compose hlt

/-- The value packed in the storable range (R187). -/
theorem units_assemble_of_normal {e : Nat} (hw : w.final c) (hexponent : w.exponent = e) (hpos : 1 ≤ e)
    (hlt : e < 2 ^ c.E - 1) : units c (assemble c w) = signFactor w.sign * (w.mantissa * 2 ^ (e - 1) : Nat) := by
  have ⟨hsign, hlow, hhigh, _, _⟩ := hw
  have hP := c.two_pow_P
  rw [assemble_of_normal hw hexponent hpos hlt, units_compose c hsign (by omega) (by omega), if_neg (by omega),
    effectiveExponent_of_ne_zero (by omega), Nat.add_sub_cancel' hlow]

/-- The parity of the stored fraction is that of the mantissa: `P ≥ 2`, so the dropped implied bit is even. -/
theorem fraction_assemble_of_normal {e : Nat} (hw : w.final c) (hexponent : w.exponent = e) (hpos : 1 ≤ e)
    (hlt : e < 2 ^ c.E - 1) : (decompose c (assemble c w)).fraction % 2 = w.mantissa % 2 := by
  have ⟨hsign, hlow, hhigh, _, _⟩ := hw
  have hP := c.two_pow_P
  have heven : 2 ^ (c.P - 1) = 2 * 2 ^ (c.P - 2) := by
    rw [← Nat.pow_succ']
    congr 1
    have := c.two_le_P
    omega
  rw [assemble_of_normal hw hexponent hpos hlt, decompose_compose_of_inRange hsign (by omega) (by omega)]
  dsimp only
  omega

end AssembledUnits

end Sys2Proof.Machine

/-! PROOFS. Correct rounding (R172 to R176, R182 of spec/45_round.md, R201 of spec/46_assemble_add.md): the finite values
next to a sum are the multiples of one unit, the dropped eighth tells where the sum lies between two of them, and each
policy takes the one its direction names. -/

namespace Sys2Proof.Machine

/-- The dropped eighth `r` tells where the magnitude `t` lies in the unit `u` above the retained value `lo`: on `lo`,
in the lower half, halfway or in the upper half. -/
structure DroppedPart (r t lo u : Nat) : Prop where
  lo_le : lo ≤ t
  lt : t < lo + u
  eq_zero_iff : r = 0 ↔ t = lo
  eq_half_iff : r = 4 ↔ 2 * t = 2 * lo + u
  half_lt_iff : 4 < r ↔ 2 * lo + u < 2 * t

section DroppedPart

variable {m t u : Nat} {q : ℚ}

/-- A mantissa that is right down to the guard bit compares with every multiple of 4 as the exact number does. -/
theorem GuardTruncationOf.four_mul_le_iff (h : GuardTruncationOf m q) (j : Nat) : 4 * j ≤ m ↔ (4 * j : Nat) ≤ q := by
  rcases h with rfl | ⟨-, hlow, hhigh⟩
  · exact Nat.cast_le.symm
  · constructor
    · intro hj
      have hle : 4 * j ≤ 4 * (m / 4) := by omega
      exact (Nat.cast_le.mpr hle).trans hlow.le
    · intro hj
      have hlt : 4 * j < 4 * (m / 4 + 1) := Nat.cast_lt.mp (hj.trans_lt hhigh)
      omega

theorem GuardTruncationOf.le_four_mul_iff (h : GuardTruncationOf m q) (j : Nat) : m ≤ 4 * j ↔ q ≤ (4 * j : Nat) := by
  rcases h with rfl | ⟨hmark, hlow, hhigh⟩
  · exact Nat.cast_le.symm
  · constructor
    · intro hj
      have hle : 4 * (m / 4 + 1) ≤ 4 * j := by omega
      exact hhigh.le.trans (Nat.cast_le.mpr hle)
    · intro hj
      have hlt : 4 * (m / 4) < 4 * j := Nat.cast_lt.mp (hlow.trans_le hj)
      omega

/-- The same two comparisons in whole numbers, the half unit `u / 2` being what 4 stands for. -/
theorem GuardTruncationOf.compare_half_units (h : GuardTruncationOf m q) (hu : 0 < u) (hq : q * u = 8 * t) (j : Nat) :
    (4 * j ≤ m ↔ j * u ≤ 2 * t) ∧ (m ≤ 4 * j ↔ 2 * t ≤ j * u) := by
  have hpos : (0 : ℚ) < u := Nat.cast_pos.mpr hu
  have hscale : q = 4 * (2 * t) / u := by rw [eq_div_iff hpos.ne', hq]; ring
  rw [h.four_mul_le_iff, h.le_four_mul_iff, hscale, le_div_iff₀ hpos, div_le_iff₀ hpos, ← Nat.cast_le (α := ℚ),
    ← Nat.cast_le (α := ℚ)]
  push_cast
  constructor <;> constructor <;> intro _ <;> linarith

theorem GuardTruncationOf.droppedPart (h : GuardTruncationOf m q) (hu : 0 < u) (hq : q * u = 8 * t) :
    DroppedPart (m % 8) t (m / 8 * u) u := by
  have hlo := h.compare_half_units hu hq (2 * (m / 8))
  have hhalf := h.compare_half_units hu hq (2 * (m / 8) + 1)
  have hhi := h.compare_half_units hu hq (2 * (m / 8) + 2)
  simp only [Nat.add_mul, Nat.mul_assoc] at hlo hhalf hhi
  constructor <;> omega

end DroppedPart

section Grid

variable {c : Cfg} {n k : Nat}

/-- Above a retained part with its implied bit set, finite values are multiples of its unit: none lies strictly within
one unit (R182). -/
theorem natAbs_units_le_or_ge (hn : 2 ^ (c.P - 1) ≤ n) (v : Nat) :
    (units c v).natAbs ≤ n * 2 ^ k ∨ (n + 1) * 2 ^ k ≤ (units c v).natAbs := by
  have hmantissa := trueMantissa_decompose_lt c v
  rw [natAbs_units]
  generalize trueMantissa c (decompose c v).exponent (decompose c v).fraction = μ at hmantissa ⊢
  generalize effectiveExponent (decompose c v).exponent - 1 = e
  rcases Nat.lt_or_ge e k with hfine | hcoarse
  · left
    calc μ * 2 ^ e ≤ 2 ^ c.P * 2 ^ e := Nat.mul_le_mul_right _ hmantissa.le
      _ = 2 ^ (c.P - 1) * 2 ^ (e + 1) := by rw [c.two_pow_P, Nat.pow_succ]; ring
      _ ≤ n * 2 ^ k := Nat.mul_le_mul hn (Nat.pow_le_pow_right Nat.two_pos hfine)
  · obtain ⟨d, rfl⟩ := Nat.exists_eq_add_of_le hcoarse
    have hmultiple : μ * 2 ^ (k + d) = μ * 2 ^ d * 2 ^ k := by rw [Nat.pow_add]; ring
    rw [hmultiple]
    rcases Nat.lt_or_ge n (μ * 2 ^ d) with habove | hbelow
    · exact .inr (Nat.mul_le_mul_right _ habove)
    · exact .inl (Nat.mul_le_mul_right _ hbelow)

/-- The largest finite value (R188) bounds the exponent at which a finite value can have its implied bit set. -/
theorem lt_of_mul_two_pow_le_natAbs_units {v : Nat} (hn : 2 ^ (c.P - 1) ≤ n) (hv : FinitePattern c v)
    (hle : n * 2 ^ k ≤ (units c v).natAbs) : k + 1 < 2 ^ c.E - 1 := by
  by_contra hlarge
  have hexponent := effectiveExponent_le_of_isFinite (decompose_isFinite hv)
  have hE := c.four_le_two_pow_E
  have hlt : (units c v).natAbs < n * 2 ^ k := by
    rw [natAbs_units]
    calc trueMantissa c (decompose c v).exponent (decompose c v).fraction *
          2 ^ (effectiveExponent (decompose c v).exponent - 1)
        < 2 ^ c.P * 2 ^ (effectiveExponent (decompose c v).exponent - 1) :=
          Nat.mul_lt_mul_of_pos_right (trueMantissa_decompose_lt c v) (Nat.two_pow_pos _)
      _ = 2 ^ (c.P - 1) * 2 ^ (effectiveExponent (decompose c v).exponent - 1 + 1) := by
          rw [c.two_pow_P, Nat.pow_succ]; ring
      _ ≤ n * 2 ^ k := Nat.mul_le_mul hn (Nat.pow_le_pow_right Nat.two_pos (by omega))
  omega

end Grid

/-- What makes `z` the rounding of `total` that the policy decides on the working value `w`, whose retained part counts
the unit `u`. -/
structure RoundsOnGrid (c : Cfg) (total : Int) (z : Nat) (w : Working) (u : Nat) : Prop where
  sign_le : w.sign ≤ 1
  total_eq : total = signFactor w.sign * total.natAbs
  dropped : DroppedPart (w.mantissa % 8) total.natAbs (w.mantissa / 8 * u) u
  no_value_between : ∀ v : Nat,
    (units c v).natAbs ≤ w.mantissa / 8 * u ∨ w.mantissa / 8 * u + u ≤ (units c v).natAbs
  units_eq : units c z = signFactor w.sign * (roundIncrement c w / 8 * u : Nat)
  fraction_even : roundIncrement c w / 8 % 2 = 0 → (decompose c z).fraction % 2 = 0

section Policies

variable {c : Cfg} {total : Int} {z u : Nat} {w : Working}

theorem correctlyRounded_of_units_eq (h : units c z = total) : CorrectlyRounded c total z := by
  unfold CorrectlyRounded
  split
  next =>
    intro v _ _
    rw [h, sub_self, abs_zero]
    exact ⟨abs_nonneg _, fun hdist hne => absurd (sub_eq_zero.mp (abs_eq_zero.mp hdist.symm)) hne⟩
  next => exact ⟨h.le, fun v _ _ hv => h ▸ hv⟩
  next => exact ⟨h.ge, fun v _ _ hv => h ▸ hv⟩
  next => exact ⟨h ▸ le_rfl, h ▸ mul_self_nonneg _, fun v _ _ _ hv => h ▸ hv⟩

/-- The answer's magnitude is the retained value or one unit more. -/
theorem roundIncrement_mul_cases (c : Cfg) (w : Working) (u : Nat) :
    (roundUp c.rm w.sign (roundBits w.mantissa) = true ∧
      roundIncrement c w / 8 = w.mantissa / 8 + 1 ∧ roundIncrement c w / 8 * u = w.mantissa / 8 * u + u) ∨
    (¬ roundUp c.rm w.sign (roundBits w.mantissa) = true ∧
      roundIncrement c w / 8 = w.mantissa / 8 ∧ roundIncrement c w / 8 * u = w.mantissa / 8 * u) := by
  rcases roundIncrement_div_eight_cases c w with ⟨hup, h⟩ | ⟨hup, h⟩
  · exact .inl ⟨hup, h, by rw [h, Nat.succ_mul]⟩
  · exact .inr ⟨Bool.not_eq_true _ ▸ hup, h, by rw [h]⟩

/-- Both signs of the sum: the answer's magnitude carries the sum's sign. -/
theorem RoundsOnGrid.sign_cases (h : RoundsOnGrid c total z w u) :
    (w.sign = 0 ∧ 0 ≤ total ∧ units c z = (roundIncrement c w / 8 * u : Nat)) ∨
    (w.sign = 1 ∧ total ≤ 0 ∧ units c z = -(roundIncrement c w / 8 * u : Nat)) := by
  have htotal := h.total_eq
  have hunits := h.units_eq
  rcases Nat.le_one_iff_eq_zero_or_eq_one.mp h.sign_le with hsign | hsign <;> rw [hsign] at htotal hunits
  · rw [signFactor_zero, one_mul] at htotal hunits
    exact .inl ⟨hsign, by omega, hunits⟩
  · rw [signFactor_one, neg_one_mul] at htotal hunits
    exact .inr ⟨hsign, by omega, hunits⟩

/-- A finite value other than the answer lies beyond the answer as seen from the sum, or on the sum's other side and so
a unit away from the answer. -/
theorem RoundsOnGrid.other_value_far (h : RoundsOnGrid c total z w u) (v : Nat) :
    units c v = units c z ∨ |units c z - total| < |units c v - total| ∨
      u ≤ |units c z - total| + |units c v - total| := by
  obtain ⟨hlo, hlt, -, -, -⟩ := h.dropped
  have hgap := h.no_value_between v
  have hmagnitude := roundIncrement_mul_cases c w u
  simp only [Int.abs_eq_natAbs]
  rcases h.sign_cases with ⟨-, htotal, hz⟩ | ⟨-, htotal, hz⟩ <;> omega

/-- Rounding to nearest moves by half a unit at most, and by exactly that only to an even multiple of it. -/
theorem RoundsOnGrid.within_half_unit (h : RoundsOnGrid c total z w u) (hrm : c.rm = .rne) :
    2 * |units c z - total| ≤ u ∧ (2 * |units c z - total| = u → roundIncrement c w / 8 % 2 = 0) := by
  obtain ⟨hlo, hlt, -, hhalf, hmore⟩ := h.dropped
  have hmagnitude := roundIncrement_mul_cases c w u
  rw [hrm, roundUp_rne_iff] at hmagnitude
  simp only [Int.abs_eq_natAbs]
  rcases h.sign_cases with ⟨-, htotal, hz⟩ | ⟨-, htotal, hz⟩ <;> omega

/-- R172: the nearer neighbour, and on a tie the even one. -/
theorem RoundsOnGrid.nearestEven (h : RoundsOnGrid c total z w u) (hrm : c.rm = .rne) (v : Nat) :
    |units c z - total| ≤ |units c v - total| ∧
      (|units c z - total| = |units c v - total| → units c v ≠ units c z → (decompose c z).fraction % 2 = 0) := by
  obtain ⟨hnear, htie⟩ := h.within_half_unit hrm
  rcases h.other_value_far v with heq | hbeyond | hacross
  · exact ⟨heq ▸ le_rfl, fun _ hne => absurd heq hne⟩
  · exact ⟨hbeyond.le, fun hdist => absurd hdist hbeyond.ne⟩
  · exact ⟨by omega, fun hdist _ => h.fraction_even (htie (by omega))⟩

/-- R173: magnitudes grow exactly below zero. -/
theorem RoundsOnGrid.greatestNotAbove (h : RoundsOnGrid c total z w u) (hrm : c.rm = .rdn) :
    units c z ≤ total ∧ ∀ v, units c v ≤ total → units c v ≤ units c z := by
  obtain ⟨hlo, hlt, hexact, -, -⟩ := h.dropped
  have hmagnitude := roundIncrement_mul_cases c w u
  have hsign := h.sign_cases
  rw [hrm, roundUp_rdn_iff] at hmagnitude
  refine ⟨by omega, fun v hv => ?_⟩
  have hgap := h.no_value_between v
  omega

/-- R174: magnitudes grow exactly above zero. -/
theorem RoundsOnGrid.leastNotBelow (h : RoundsOnGrid c total z w u) (hrm : c.rm = .rup) :
    total ≤ units c z ∧ ∀ v, total ≤ units c v → units c z ≤ units c v := by
  obtain ⟨hlo, hlt, hexact, -, -⟩ := h.dropped
  have hmagnitude := roundIncrement_mul_cases c w u
  have hsign := h.sign_cases
  rw [hrm, roundUp_rup_iff] at hmagnitude
  refine ⟨by omega, fun v hv => ?_⟩
  have hgap := h.no_value_between v
  omega

/-- R175: the retained value itself. -/
theorem RoundsOnGrid.towardZero (h : RoundsOnGrid c total z w u) (hrm : c.rm = .rtz) :
    |units c z| ≤ |total| ∧ 0 ≤ units c z * total ∧ ∀ v, |units c v| ≤ |total| → |units c v| ≤ |units c z| := by
  obtain ⟨hlo, hlt, -, -, -⟩ := h.dropped
  have hmagnitude : roundIncrement c w / 8 * u = w.mantissa / 8 * u := by
    rw [roundIncrement, hrm, roundUp, if_neg Bool.false_ne_true]
  have hsign := h.sign_cases
  simp only [Int.abs_eq_natAbs]
  refine ⟨by omega, ?_, fun v hv => ?_⟩
  · rcases hsign with ⟨-, htotal, hz⟩ | ⟨-, htotal, hz⟩
    · exact mul_nonneg (by omega) htotal
    · exact mul_nonneg_of_nonpos_of_nonpos (by omega) htotal
  · have hgap := h.no_value_between v
    omega

theorem RoundsOnGrid.correctlyRounded (h : RoundsOnGrid c total z w u) : CorrectlyRounded c total z := by
  unfold CorrectlyRounded
  split
  next hrm => exact fun v _ _ => h.nearestEven hrm v
  next hrm =>
    obtain ⟨hle, hgreatest⟩ := h.greatestNotAbove hrm
    exact ⟨hle, fun v _ _ => hgreatest v⟩
  next hrm =>
    obtain ⟨hge, hleast⟩ := h.leastNotBelow hrm
    exact ⟨hge, fun v _ _ => hleast v⟩
  next hrm =>
    obtain ⟨hle, hsame, hgreatest⟩ := h.towardZero hrm
    exact ⟨hle, hsame, fun v _ _ _ => hgreatest v⟩

end Policies

end Sys2Proof.Machine

/-! PROOFS. ADD of finite operands is correctly rounded (R182 of spec/45_round.md, R201 of spec/46_assemble_add.md): below the
normal range the sum is exact, and from there up the Rounder works on the grid of finite values. -/

namespace Sys2Proof.Machine

section RoundedValue

variable {c : Cfg} {w : Working}

/-- The Rounder's output has the incremented value at the unit of its input, carry or not (R178), and is even with it. -/
theorem roundStage_value {k : Nat} (hw : w.normalised c) (hk : w.exponent = (k + 1 : Nat)) :
    ∃ e : Nat, 1 ≤ e ∧ (roundStage c w).exponent = e ∧
      (roundStage c w).mantissa * 2 ^ (e - 1) = roundIncrement c w / 8 * 2 ^ k ∧
      (roundIncrement c w / 8 % 2 = 0 → (roundStage c w).mantissa % 2 = 0) := by
  cases hcarry : (roundIncrement c w >>> 3).testBit c.P with
  | true =>
    rw [roundStage_of_carry hw hcarry, (carry_iff_eq_two_pow hw).mp hcarry]
    refine ⟨k + 2, by omega, by rw [hk]; rfl, ?_, fun _ => ?_⟩
    · rw [c.two_pow_P, Nat.add_succ_sub_one, Nat.pow_succ]
      ring
    · obtain ⟨p, hp⟩ := Nat.exists_eq_add_of_le' c.two_le_P
      simp [hp, Nat.pow_succ]
  | false =>
    rw [roundStage_of_no_carry hcarry]
    exact ⟨k + 1, by omega, hk, rfl, id⟩

/-- An exact mantissa only loses its three zero bits. -/
theorem roundStage_of_exact (hw : w.normalised c) (hexact : w.mantissa % 8 = 0) :
    roundStage c w = { sign := w.sign, exponent := w.exponent, mantissa := w.mantissa / 8 } := by
  have hdown := roundUp_of_exact c.rm w.sign hexact
  have hincrement : roundIncrement c w = w.mantissa := by rw [roundIncrement, hdown, if_neg Bool.false_ne_true]
  have hnoCarry : (roundIncrement c w >>> 3).testBit c.P = false := by
    rw [← Bool.not_eq_true, carry_iff_roundUp_of_allOnes hw, hdown]
    simp
  rw [roundStage_of_no_carry hnoCarry, hincrement]

theorem roundStage_exponent_of_exact (hw : w.normalised c) (hexact : w.mantissa % 8 = 0) :
    (roundStage c w).exponent = w.exponent := by rw [roundStage_of_exact hw hexact]

theorem roundStage_mantissa_of_exact (hw : w.normalised c) (hexact : w.mantissa % 8 = 0) :
    (roundStage c w).mantissa = w.mantissa / 8 := by rw [roundStage_of_exact hw hexact]

end RoundedValue

section FiniteSum

variable {c : Cfg} {x y : Nat} {w : Working}

theorem units_zero (c : Cfg) : units c 0 = 0 := by
  have h := units_compose c (sg := 0) (e := 0) (f := 0) (by decide) (Nat.two_pow_pos _) (Nat.two_pow_pos _)
  simpa using h

theorem response_add_of_units_eq_zero (hxFits : Fits x c.W) (hyFits : Fits y c.W) (hx : FinitePattern c x)
    (hy : FinitePattern c y) (hzero : units c x + units c y = 0) : response c (.add x y) = 0 := by
  have hnone : combineNormalize c (decompose c x).sign (decompose c y).sign
      (align c (decompose c x) (decompose c y)) = none := normalisedSum_eq_none_iff_units.mpr hzero
  rw [response_add_of_finitePattern hx hy hxFits hyFits, addFinite, hnone]
  exact compose_zero c

theorem response_add_of_normalisedSum (hxFits : Fits x c.W) (hyFits : Fits y c.W) (hx : FinitePattern c x)
    (hy : FinitePattern c y) (h : normalisedSum c x y = some w) :
    response c (.add x y) = assemble c (roundStage c w) := by
  have hsome : combineNormalize c (decompose c x).sign (decompose c y).sign
      (align c (decompose c x) (decompose c y)) = some w := h
  rw [response_add_of_finitePattern hx hy hxFits hyFits, addFinite, hsome]

/-- Below the normal range the denormalising shift gives the exact sum back (R191). -/
theorem units_assemble_of_exponent_nonpos (hx : FinitePattern c x) (hy : FinitePattern c y)
    (h : normalisedSum c x y = some w) (hlow : w.exponent ≤ 0) :
    units c (assemble c (roundStage c w)) = units c x + units c y := by
  have hw := normalisedSum_normalised hx hy h
  have hmantissa := mantissa_eq_of_exponent_nonpos hx hy h hlow
  have hexact : w.mantissa % 8 = 0 := by omega
  have hexponent := roundStage_exponent_of_exact hw hexact
  have hnonpos : (roundStage c w).exponent ≤ 0 := hexponent ▸ hlow
  have hkept : (roundStage c w).mantissa >>> (1 - (roundStage c w).exponent).toNat =
      (units c x + units c y).natAbs := by
    rw [hexponent, roundStage_mantissa_of_exact hw hexact, hmantissa, Nat.mul_div_cancel_left _ (by decide),
      Nat.shiftRight_eq_div_pow, Nat.mul_div_cancel _ (Nat.two_pow_pos _)]
  obtain ⟨-, hlt⟩ := denormalised_range (roundStage_final hw) hnonpos
  rw [hkept] at hlt
  rw [assemble_of_nonpos hnonpos, hkept, roundStage_sign, units_compose c hw.1 (Nat.two_pow_pos _) hlt, if_pos rfl]
  exact (Nat.mul_one _).symm ▸ (units_add_eq_signFactor_mul h).symm

/-- From the normal range up, `2 ^ k` is the unit of the retained part. -/
theorem droppedPart_of_normal {k : Nat} (hx : FinitePattern c x) (hy : FinitePattern c y)
    (h : normalisedSum c x y = some w) (hk : w.exponent = (k + 1 : Nat)) :
    DroppedPart (w.mantissa % 8) (units c x + units c y).natAbs (w.mantissa / 8 * 2 ^ k) (2 ^ k) := by
  refine (normalisedSum_guardTruncationOf hx hy h).droppedPart (Nat.two_pow_pos k) ?_
  have hexponent : 4 - w.exponent + (k : Int) = 3 := by omega
  rw [Nat.cast_pow, Nat.cast_ofNat, mul_assoc, ← zpow_natCast, ← zpow_add₀ two_ne_zero, hexponent]
  norm_num
  ring

theorem roundsOnGrid_of_normal {k : Nat} (hx : FinitePattern c x) (hy : FinitePattern c y)
    (h : normalisedSum c x y = some w) (hk : w.exponent = (k + 1 : Nat))
    (hlt : (roundStage c w).exponent < 2 ^ c.E - 1) :
    RoundsOnGrid c (units c x + units c y) (assemble c (roundStage c w)) w (2 ^ k) := by
  have hw := normalisedSum_normalised hx hy h
  have hfinal := roundStage_final hw
  have ⟨hlow, _⟩ := div_eight_range_of_normalised hw
  obtain ⟨e, hpos, hexponent, hvalue, heven⟩ := roundStage_value hw hk
  have hlt' : e < 2 ^ c.E - 1 := by
    have : (e : Int) + 1 < (2 ^ c.E : Nat) := by push_cast; omega
    omega
  exact
    { sign_le := hw.1
      total_eq := units_add_eq_signFactor_mul h
      dropped := droppedPart_of_normal hx hy h hk
      no_value_between := fun v => Nat.succ_mul _ _ ▸ natAbs_units_le_or_ge hlow v
      units_eq := by rw [units_assemble_of_normal hfinal hexponent hpos hlt', hvalue, roundStage_sign]
      fraction_even := fun hretained => (fraction_assemble_of_normal hfinal hexponent hpos hlt').trans (heven hretained) }

end FiniteSum

/-- Settles O31. A sum that is zero or below the normal range is answered exactly; for any other the finite values around
it are the retained part of the mantissa and one unit more, and the policy decides between the two. -/
theorem addIsCorrectlyRounded : Obligations.AddIsCorrectlyRounded := by
  intro c x y hxFits hyFits hx hy hfinite
  cases hsum : normalisedSum c x y with
  | none =>
    have hzero := normalisedSum_eq_none_iff_units.mp hsum
    rw [response_add_of_units_eq_zero hxFits hyFits hx hy hzero]
    exact correctlyRounded_of_units_eq ((units_zero c).trans hzero.symm)
  | some w =>
    rw [response_add_of_normalisedSum hxFits hyFits hx hy hsum] at hfinite ⊢
    rcases le_or_gt w.exponent 0 with hlow | hpos
    · exact correctlyRounded_of_units_eq (units_assemble_of_exponent_nonpos hx hy hsum hlow)
    · obtain ⟨k, hk⟩ := Int.eq_succ_of_zero_lt hpos
      exact (roundsOnGrid_of_normal hx hy hsum hk (exponent_lt_of_finitePattern hfinite)).correctlyRounded

section Representable

variable {c : Cfg} {x y v : Nat}

/-- Whatever the direction, a value that needs no rounding is its own rounding (R182). -/
theorem CorrectlyRounded.units_eq {total : Int} {z : Nat} (h : CorrectlyRounded c total z) (hvFits : Fits v c.W)
    (hv : FinitePattern c v) (hrep : units c v = total) : units c z = total := by
  have hv' := (packedIsFinite_iff c v).mpr hv
  unfold CorrectlyRounded at h
  split at h
  next =>
    obtain ⟨hnearest, -⟩ := h v hvFits hv'
    rw [hrep, sub_self, abs_zero] at hnearest
    exact sub_eq_zero.mp (abs_nonpos_iff.mp hnearest)
  next =>
    obtain ⟨hle, hgreatest⟩ := h
    exact hle.antisymm (hrep ▸ hgreatest v hvFits hv' hrep.le)
  next =>
    obtain ⟨hge, hleast⟩ := h
    exact (hrep ▸ hleast v hvFits hv' hrep.ge).antisymm hge
  next =>
    obtain ⟨hle, hsame, hgreatest⟩ := h
    have hge := hgreatest v hvFits hv' (hrep ▸ mul_self_nonneg _) (hrep ▸ le_rfl)
    rw [hrep] at hge
    rcases abs_eq_abs.mp (hle.antisymm hge) with heq | hopposite
    · exact heq
    · have hzero : total = 0 := by
        rw [hopposite, neg_mul, neg_nonneg] at hsame
        exact mul_self_eq_zero.mp (hsame.antisymm (mul_self_nonneg _))
      rw [hopposite, hzero, neg_zero]

/-- A sum that is the value of a finite pattern is the retained part itself: nothing is dropped, and the exponent is one
that a finite pattern has. -/
theorem exact_of_representable {k : Nat} {w : Working} (hx : FinitePattern c x) (hy : FinitePattern c y)
    (hv : FinitePattern c v) (hrep : units c x + units c y = units c v) (h : normalisedSum c x y = some w)
    (hk : w.exponent = (k + 1 : Nat)) : w.mantissa % 8 = 0 ∧ k + 1 < 2 ^ c.E - 1 := by
  have ⟨hlow, _⟩ := div_eight_range_of_normalised (normalisedSum_normalised hx hy h)
  obtain ⟨hlo, hlt, hexact, -, -⟩ := droppedPart_of_normal hx hy h hk
  have hgap := natAbs_units_le_or_ge (k := k) hlow v
  rw [Nat.succ_mul] at hgap
  rw [hrep] at hlo hlt hexact
  exact ⟨hexact.mpr (by omega), lt_of_mul_two_pow_le_natAbs_units hlow hv hlo⟩

theorem roundStage_exponent_lt_of_representable {w : Working} (hx : FinitePattern c x) (hy : FinitePattern c y)
    (hv : FinitePattern c v) (hrep : units c x + units c y = units c v) (h : normalisedSum c x y = some w) :
    (roundStage c w).exponent < 2 ^ c.E - 1 := by
  have hw := normalisedSum_normalised hx hy h
  have hE : (4 : Int) ≤ 2 ^ c.E := by exact_mod_cast c.four_le_two_pow_E
  rcases le_or_gt w.exponent 0 with hlow | hpos
  · have hmantissa := mantissa_eq_of_exponent_nonpos hx hy h hlow
    rw [roundStage_exponent_of_exact hw (by omega)]
    omega
  · obtain ⟨k, hk⟩ := Int.eq_succ_of_zero_lt hpos
    obtain ⟨hexact, hlt⟩ := exact_of_representable hx hy hv hrep h hk
    have hlt' : ((k + 1 : Nat) : Int) + 1 < (2 ^ c.E : Nat) := by omega
    push_cast at hlt'
    rw [roundStage_exponent_of_exact hw hexact, hk]
    omega

theorem finitePattern_response_of_representable (hxFits : Fits x c.W) (hyFits : Fits y c.W) (hx : FinitePattern c x)
    (hy : FinitePattern c y) (hv : FinitePattern c v) (hrep : units c x + units c y = units c v) :
    FinitePattern c (response c (.add x y)) := by
  cases hsum : normalisedSum c x y with
  | none =>
    have hE := c.four_le_two_pow_E
    rw [response_add_of_units_eq_zero hxFits hyFits hx hy (normalisedSum_eq_none_iff_units.mp hsum), ← compose_zero c]
    exact finitePattern_compose (by omega)
  | some w =>
    rw [response_add_of_normalisedSum hxFits hyFits hx hy hsum]
    exact finitePattern_assemble (roundStage_final (normalisedSum_normalised hx hy hsum))
      (roundStage_exponent_lt_of_representable hx hy hv hrep hsum)

end Representable

/-- Settles O34: such a sum does not overflow, and correct rounding in any direction leaves it as it is. -/
theorem addOfRepresentableSumIsExact : Obligations.AddOfRepresentableSumIsExact := by
  intro c x y v hxFits hyFits hvFits hx hy hv hrep
  have hfinite := finitePattern_response_of_representable hxFits hyFits hx hy hv hrep
  have hrounded := addIsCorrectlyRounded c x y hxFits hyFits hx hy hfinite
  exact ⟨hfinite, (hrounded.units_eq hvFits hv hrep.symm).trans hrep⟩

end Sys2Proof.Machine

/-! PROOFS. Final assembly (R185 to R192 of spec/46_assemble_add.md): the three ranges in plain arithmetic, and the
value that the packed result keeps. -/

namespace Sys2Proof

theorem Cfg.cast_allOnes (c : Cfg) : ((2 ^ c.E - 1 : Nat) : Int) = 2 ^ c.E - 1 := by
  rw [Nat.cast_sub Nat.one_le_two_pow]
  norm_cast

namespace Machine

section PackedRanges

variable {c : Cfg} {w : Working}

/-- The packed word whose fields are within their widths (R101). -/
theorem compose_of_inRange {sg e f : Nat} (hs : sg ≤ 1) (he : e < 2 ^ c.E) (hf : f < 2 ^ (c.P - 1)) :
    compose c sg e f = sg * 2 ^ (c.W - 1) + e * 2 ^ (c.P - 1) + f := by
  rw [compose_eq, Nat.mod_eq_of_lt (Nat.lt_succ_of_le hs), Nat.mod_eq_of_lt he, Nat.mod_eq_of_lt hf]

theorem assemble_of_overflow (h : 2 ^ c.E - 1 ≤ w.exponent) : assemble c w = compose c w.sign c.expAllOnes 0 := by
  rw [assemble, if_pos (by rwa [Cfg.expAllOnes, c.cast_allOnes])]

/-- R188 in plain arithmetic. -/
theorem assemble_eq_of_overflow (hw : w.final c) (h : 2 ^ c.E - 1 ≤ w.exponent) :
    assemble c w = w.sign * 2 ^ (c.W - 1) + (2 ^ c.E - 1) * 2 ^ (c.P - 1) := by
  obtain ⟨hsign, -, -, -, -⟩ := hw
  have hE := Nat.two_pow_pos c.E
  rw [assemble_of_overflow h, Cfg.expAllOnes, compose_of_inRange hsign (by omega) (Nat.two_pow_pos _), Nat.add_zero]

/-- R189 in plain arithmetic. -/
theorem assemble_eq_of_normal {e : Nat} (hw : w.final c) (hexponent : w.exponent = e) (hpos : 1 ≤ e)
    (hlt : e < 2 ^ c.E - 1) :
    assemble c w = w.sign * 2 ^ (c.W - 1) + e * 2 ^ (c.P - 1) + (w.mantissa - 2 ^ (c.P - 1)) := by
  have ⟨hsign, _, hhigh, _, _⟩ := hw
  have hP := c.two_pow_P
  rw [assemble_of_normal hw hexponent hpos hlt, compose_of_inRange hsign (by omega) (by omega)]

/-- R190 in plain arithmetic: the shifted mantissa stays below the implied bit. -/
theorem assemble_eq_of_nonpos (hw : w.final c) (h : w.exponent ≤ 0) :
    assemble c w = w.sign * 2 ^ (c.W - 1) + w.mantissa / 2 ^ (1 - w.exponent).toNat := by
  obtain ⟨-, hlt⟩ := denormalised_range hw h
  obtain ⟨hsign, -, -, -, -⟩ := hw
  rw [assemble_of_nonpos h, compose_of_inRange hsign (Nat.two_pow_pos _) hlt, Nat.zero_mul, Nat.add_zero,
    Nat.shiftRight_eq_div_pow]

/-- A positive exponent below all ones is one that a normal value stores. -/
theorem exists_storable_exponent (hpos : 0 < w.exponent) (hlt : w.exponent < 2 ^ c.E - 1) :
    ∃ e : Nat, w.exponent = e ∧ 1 ≤ e ∧ e < 2 ^ c.E - 1 := by
  obtain ⟨e, he⟩ := Int.eq_ofNat_of_zero_le hpos.le
  have hcast := c.cast_allOnes
  exact ⟨e, he, by omega, by omega⟩

end PackedRanges

/-- Settles O45, range by range: the fields given to `compose` are within their widths, and the implied bit is what the
storable range takes off the mantissa. -/
theorem assemblyPacksInThreeRanges : Obligations.AssemblyPacksInThreeRanges := by
  refine fun c w hw => ⟨assemble_eq_of_overflow hw, fun hpos hlt => ?_, assemble_eq_of_nonpos hw⟩
  obtain ⟨e, he, hone, hstorable⟩ := exists_storable_exponent (by omega) hlt
  rw [assemble_eq_of_normal hw he hone hstorable, he, Int.toNat_natCast]

section KeptValue

variable {c : Cfg} {w : Working}

/-- A denormalising shift that drops only zeros leaves the value, in smallest subnormals (R190, R191). -/
theorem units_assemble_of_nonpos {q : Nat} (hw : w.final c) (hexp : w.exponent ≤ 0)
    (hq : w.mantissa = 2 ^ (1 - w.exponent).toNat * q) : units c (assemble c w) = signFactor w.sign * q := by
  obtain ⟨-, hlt⟩ := denormalised_range hw hexp
  obtain ⟨hsign, -, -, -, -⟩ := hw
  have hshifted : w.mantissa >>> (1 - w.exponent).toNat = q := by
    rw [Nat.shiftRight_eq_div_pow, hq, Nat.mul_div_cancel_left _ (Nat.two_pow_pos _)]
  rw [hshifted] at hlt
  rw [assemble_of_nonpos hexp, hshifted, units_compose c hsign (Nat.two_pow_pos _) hlt, if_pos rfl]
  simp [effectiveExponent]

/-- The packed value in smallest subnormals, which are the unit of the exponent 1 (R187). -/
theorem cast_units_assemble (hw : w.final c) (hlt : w.exponent < 2 ^ c.E - 1)
    (hexact : w.exponent ≤ 0 → 2 ^ (1 - w.exponent).toNat ∣ w.mantissa) :
    (units c (assemble c w) : ℚ) = signFactor w.sign * w.mantissa * 2 ^ (w.exponent - 1) := by
  rcases le_or_gt w.exponent 0 with hlow | hpos
  · obtain ⟨q, hq⟩ := hexact hlow
    have hexponent : w.exponent - 1 = -((1 - w.exponent).toNat : Int) := by omega
    rw [units_assemble_of_nonpos hw hlow hq, hq, hexponent, zpow_neg, zpow_natCast]
    push_cast
    field_simp
  · obtain ⟨e, he, hone, hstorable⟩ := exists_storable_exponent hpos hlt
    have hexponent : w.exponent - 1 = (e - 1 : Nat) := by omega
    rw [units_assemble_of_normal hw he hone hstorable, hexponent, zpow_natCast]
    push_cast
    ring

end KeptValue

/-- Settles O46: below the overflow range the packed fields count the mantissa in the unit of its exponent. -/
theorem assemblyKeepsTheValue : Obligations.AssemblyKeepsTheValue := by
  intro c w hw hlt hexact
  refine ⟨assemble_fits c w, finitePattern_assemble hw hlt, ?_⟩
  have hunit : w.exponent - 1 + (4 - c.bias - (c.P - 1) - 3) = w.exponent - c.bias - (c.P - 1) := by ring
  rw [realValue_eq_units, cast_units_assemble hw hlt hexact, bitZeroUnit, mul_assoc, ← zpow_add₀ two_ne_zero, hunit]

end Machine
end Sys2Proof

/-! PROOFS. The exponent that ADD hands to final assembly (R186, R191 of spec/46_assemble_add.md): below the normal
range nothing is dropped, and at the top of the range a carry-out leaves no room for a rounding carry. -/

namespace Sys2Proof.Machine

/-- The largest finite magnitude as a natural number: `2^P - 1` at the stored exponent `2^E - 2`. -/
def maxMagnitude (c : Cfg) : Nat := (2 ^ c.P - 1) * 2 ^ (2 ^ c.E - 3)

theorem maxFiniteUnits_eq (c : Cfg) : maxFiniteUnits c = maxMagnitude c := by
  rw [maxFiniteUnits, maxMagnitude, Nat.cast_mul, Nat.cast_sub Nat.one_le_two_pow]
  push_cast
  rfl

/-- One unit beyond the largest finite magnitude is the next power of 2. -/
theorem maxMagnitude_add_unit (c : Cfg) : maxMagnitude c + 2 ^ (2 ^ c.E - 3) = 2 ^ c.P * 2 ^ (2 ^ c.E - 3) := by
  rw [maxMagnitude, ← Nat.succ_mul, Nat.succ_eq_add_one, Nat.sub_add_cancel Nat.one_le_two_pow]

section LargestFinite

variable {c : Cfg} {x y : Nat}

theorem natAbs_units_le_maxMagnitude (h : FinitePattern c x) : (units c x).natAbs ≤ maxMagnitude c := by
  have hexponent := effectiveExponent_le_of_isFinite (decompose_isFinite h)
  rw [natAbs_units]
  exact Nat.mul_le_mul (Nat.le_sub_one_of_lt (trueMantissa_decompose_lt c x))
    (Nat.pow_le_pow_right Nat.two_pos (by omega))

theorem natAbs_units_add_le (hx : FinitePattern c x) (hy : FinitePattern c y) :
    (units c x + units c y).natAbs ≤ 2 * maxMagnitude c := by
  have hxLe := natAbs_units_le_maxMagnitude hx
  have hyLe := natAbs_units_le_maxMagnitude hy
  omega

end LargestFinite

section Subnormal

variable {c : Cfg} {x y : Nat} {w : Working}

theorem mantissa_mod_eight_of_nonpos (hx : FinitePattern c x) (hy : FinitePattern c y)
    (h : normalisedSum c x y = some w) (hlow : w.exponent ≤ 0) : w.mantissa % 8 = 0 := by
  rw [mantissa_eq_of_exponent_nonpos hx hy h hlow, Nat.mul_mod_right]

end Subnormal

/-- Settles O47: the mantissa holds the sum in smallest subnormals above three zeros and those that the denormalising
shift drops. -/
theorem sumsBelowTheNormalRangeAreExact : Obligations.SumsBelowTheNormalRangeAreExact := by
  intro c x y w _ _ hx hy h hlow
  have hw := normalisedSum_normalised hx hy h
  have hexact := mantissa_mod_eight_of_nonpos hx hy h hlow
  refine ⟨hexact, roundUp_of_exact c.rm w.sign hexact, roundStage_exponent_of_exact hw hexact, ?_⟩
  rw [roundStage_mantissa_of_exact hw hexact, mantissa_eq_of_exponent_nonpos hx hy h hlow,
    Nat.mul_div_cancel_left _ (by decide)]
  exact Nat.dvd_mul_left _ _

section TopExponent

variable {c : Cfg} {x y : Nat} {w : Working}

theorem roundStage_exponent_le (c : Cfg) (w : Working) : (roundStage c w).exponent ≤ w.exponent + 1 := by
  unfold roundStage
  split <;> dsimp only <;> omega

/-- After a carry-out to the exponent of all ones a mantissa of all ones is twice the largest finite magnitude, the
largest sum there is, so nothing was dropped from it. -/
theorem mantissa_mod_eight_of_allOnes (hx : FinitePattern c x) (hy : FinitePattern c y)
    (h : normalisedSum c x y = some w) (htop : w.exponent = 2 ^ c.E - 1) (hones : w.mantissa / 8 = 2 ^ c.P - 1) :
    w.mantissa % 8 = 0 := by
  have hE := c.four_le_two_pow_E
  have hcast := c.cast_allOnes
  have hk : w.exponent = ((2 ^ c.E - 3 + 1) + 1 : Nat) := by omega
  obtain ⟨hlo, -, hexact, -, -⟩ := droppedPart_of_normal hx hy h hk
  have hlargest : w.mantissa / 8 * 2 ^ (2 ^ c.E - 3 + 1) = 2 * maxMagnitude c := by
    rw [hones, Nat.pow_succ, maxMagnitude]
    ring
  rw [hlargest] at hlo hexact
  exact hexact.mpr ((natAbs_units_add_le hx hy).antisymm hlo)

theorem roundStage_exponent_le_allOnes (hx : FinitePattern c x) (hy : FinitePattern c y)
    (h : normalisedSum c x y = some w) : (roundStage c w).exponent ≤ 2 ^ c.E - 1 := by
  have hw := normalisedSum_normalised hx hy h
  have ⟨_, _, _, _, hle⟩ := hw
  rcases hle.lt_or_eq with hlt | htop
  · have := roundStage_exponent_le c w
    omega
  · cases hcarry : (roundIncrement c w >>> 3).testBit c.P with
    | false => rw [roundStage_of_no_carry hcarry]; exact hle
    | true =>
      obtain ⟨hup, hones⟩ := (carry_iff_roundUp_of_allOnes hw).mp hcarry
      rw [roundUp_of_exact c.rm w.sign (mantissa_mod_eight_of_allOnes hx hy h htop hones)] at hup
      exact absurd hup Bool.false_ne_true

end TopExponent

/-- Settles O48: the lower bound is the Rounder's, and at the exponent of all ones only an exact mantissa could carry.
-/
theorem finalExponentNeverExceedsAllOnes : Obligations.FinalExponentNeverExceedsAllOnes := by
  intro c x y w _ _ hx hy h
  obtain ⟨-, -, -, hlow, -⟩ := roundStage_final (normalisedSum_normalised hx hy h)
  exact ⟨hlow, roundStage_exponent_le_allOnes hx hy h⟩

end Sys2Proof.Machine

/-! PROOFS. The kinds of answers of ADD (R195, R198, R200 of spec/46_assemble_add.md): a `W`-bit pattern in every state,
a NaN only from the short-circuit, and never `-0`. -/

namespace Sys2Proof.Machine

/-- Settles O22: the response is a function of `CFG` and the request, and has `W` bits. -/
theorem addAnswersAPattern : Obligations.AddAnswersAPattern := by
  refine fun c x y => ⟨response c (.add x y), response_fits c _, fun s hs => ?_⟩
  rw [exec_eq_respond, hs, State.respond]

/-- The operands that have no sum: a NaN, or infinities of opposite sign (R127, R130). -/
abbrev NanOperands (c : Cfg) (x y : Nat) : Prop :=
  NanPattern c x ∨ NanPattern c y ∨ (InfPattern c x ∧ InfPattern c y ∧ signField c x ≠ signField c y)

section AnswerKinds

variable {c : Cfg} {x y z : Nat}

theorem operand_operand (c : Cfg) (x : Nat) : operand c (operand c x) = operand c x := operand_of_fits (operand_lt c x)

/-- ADD sees the operands' low `W` bits only (log 5). -/
theorem response_add_operand (c : Cfg) (x y : Nat) :
    response c (.add (operand c x) (operand c y)) = response c (.add x y) := by
  simp only [response, addResponse, operand_operand]

theorem response_add_of_shortCircuit (hx : Fits x c.W) (hy : Fits y c.W) (h : shortCircuit c x y = some z) :
    response c (.add x y) = z := by
  rw [response, addResponse, operand_of_fits hx, operand_of_fits hy, addPacked_of_shortCircuit h]

theorem nanPattern_canonNan (c : Cfg) : NanPattern c (canonNan c) := by
  have hE := c.four_le_two_pow_E
  have hP : 1 < 2 ^ (c.P - 1) := Nat.one_lt_two_pow (by have := c.two_le_P; omega)
  rw [NanPattern, canonNan, exponentField_compose, fractionField_compose, Cfg.expAllOnes, Nat.mod_eq_of_lt (by omega),
    Nat.mod_eq_of_lt hP]
  exact ⟨rfl, one_ne_zero⟩

/-- Everything ADD can answer, by the kinds of its operands (R125 to R131, R194). -/
theorem response_add_cases (hx : Fits x c.W) (hy : Fits y c.W) :
    (NanOperands c x y ∧ response c (.add x y) = canonNan c) ∨
    (¬ NanOperands c x y ∧ InfPattern c (response c (.add x y))) ∨
    (FinitePattern c x ∧ FinitePattern c y) := by
  rcases shortCircuit_cases c x y with
    ⟨hnan, h⟩ | ⟨hxInf, hyInf, hsame, h⟩ | ⟨hxInf, hyInf, hopposite, h⟩ | ⟨hxInf, hyFin, h⟩ | ⟨hxFin, hyInf, h⟩ |
      ⟨hxFin, hyFin, -⟩
  · exact .inl ⟨or_assoc.mp (.inl hnan), response_add_of_shortCircuit hx hy h⟩
  · refine .inr (.inl ⟨?_, by rwa [response_add_of_shortCircuit hx hy h]⟩)
    simp [not_nanPattern_of_infPattern hxInf, not_nanPattern_of_infPattern hyInf, hsame]
  · exact .inl ⟨.inr (.inr ⟨hxInf, hyInf, hopposite⟩), response_add_of_shortCircuit hx hy h⟩
  · refine .inr (.inl ⟨?_, by rwa [response_add_of_shortCircuit hx hy h]⟩)
    simp [not_nanPattern_of_infPattern hxInf, not_nanPattern_of_finitePattern hyFin,
      not_infPattern_of_finitePattern hyFin]
  · refine .inr (.inl ⟨?_, by rwa [response_add_of_shortCircuit hx hy h]⟩)
    simp [not_nanPattern_of_finitePattern hxFin, not_nanPattern_of_infPattern hyInf,
      not_infPattern_of_finitePattern hxFin]
  · exact .inr (.inr ⟨hxFin, hyFin⟩)

end AnswerKinds

section FiniteOperands

variable {c : Cfg} {x y : Nat} {w : Working}

theorem not_nanPattern_assemble (hw : w.final c) : ¬ NanPattern c (assemble c w) := by
  rcases le_or_gt (2 ^ c.E - 1) w.exponent with hlarge | hlt
  · exact not_nanPattern_of_infPattern (infPattern_assemble hlarge)
  · exact not_nanPattern_of_finitePattern (finitePattern_assemble hw hlt)

theorem finitePattern_zeros (c : Cfg) (sg : Nat) : FinitePattern c (compose c sg 0 0) :=
  finitePattern_compose (Nat.pos_of_ne_zero c.allOnes_ne_zero)

/-- The two ways ADD ends on finite operands (R154, R194). -/
theorem response_add_finite_cases (hxFits : Fits x c.W) (hyFits : Fits y c.W) (hx : FinitePattern c x)
    (hy : FinitePattern c y) :
    (units c x + units c y = 0 ∧ response c (.add x y) = compose c 0 0 0) ∨
    ∃ w, normalisedSum c x y = some w ∧ units c x + units c y ≠ 0 ∧
      response c (.add x y) = assemble c (roundStage c w) := by
  cases h : normalisedSum c x y with
  | none =>
    have hzero := normalisedSum_eq_none_iff_units.mp h
    exact .inl ⟨hzero, (response_add_of_units_eq_zero hxFits hyFits hx hy hzero).trans (compose_zero c).symm⟩
  | some w =>
    have hne : units c x + units c y ≠ 0 := fun hzero => by
      rw [normalisedSum_eq_none_iff_units.mpr hzero] at h
      cases h
    exact .inr ⟨w, rfl, hne, response_add_of_normalisedSum hxFits hyFits hx hy h⟩

theorem not_nanPattern_response_add (hxFits : Fits x c.W) (hyFits : Fits y c.W) (hx : FinitePattern c x)
    (hy : FinitePattern c y) : ¬ NanPattern c (response c (.add x y)) := by
  rcases response_add_finite_cases hxFits hyFits hx hy with ⟨-, h⟩ | ⟨w, hsum, -, h⟩ <;> rw [h]
  · exact not_nanPattern_of_finitePattern (finitePattern_zeros c 0)
  · exact not_nanPattern_assemble (roundStage_final (normalisedSum_normalised hx hy hsum))

end FiniteOperands

/-- Settles O28: the short-circuit answers the canonical NaN or an infinite operand, and final assembly packs no NaN. -/
theorem addAnswersNanOnlyForNanOrOppositeInfinities : Obligations.AddAnswersNanOnlyForNanOrOppositeInfinities := by
  intro c x y hx hy
  rcases response_add_cases hx hy with ⟨hkind, h⟩ | ⟨hkind, hinf⟩ | ⟨hxFin, hyFin⟩
  · rw [h]
    exact ⟨iff_of_true (nanPattern_canonNan c) hkind, fun _ => rfl⟩
  · have hnot := not_nanPattern_of_infPattern hinf
    exact ⟨iff_of_false hnot hkind, fun hnan => absurd hnan hnot⟩
  · have hnot := not_nanPattern_response_add hx hy hxFin hyFin
    refine ⟨iff_of_false hnot ?_, fun hnan => absurd hnan hnot⟩
    simp [not_nanPattern_of_finitePattern hxFin, not_nanPattern_of_finitePattern hyFin,
      not_infPattern_of_finitePattern hxFin]

section MinusZero

variable {c : Cfg} {w : Working}

/-- The sign bit stands above the exponent and the fraction. -/
theorem compose_eq_sign_add (c : Cfg) (sg e f : Nat) :
    compose c sg e f = sg % 2 * 2 ^ (c.W - 1) + compose c 0 e f := by
  rw [compose_eq, compose_eq]
  ring

/-- Final assembly does to the sign nothing but place it. -/
theorem assemble_eq_sign_add (c : Cfg) (w : Working) :
    assemble c w = w.sign % 2 * 2 ^ (c.W - 1) + assemble c { w with sign := 0 } := by
  unfold assemble
  split
  · exact compose_eq_sign_add c _ _ _
  · split <;> exact compose_eq_sign_add c _ _ _

theorem signField_assemble (hsign : w.sign ≤ 1) : signField c (assemble c w) = w.sign := by
  have hsignMod : w.sign % 2 = w.sign := Nat.mod_eq_of_lt (Nat.lt_succ_of_le hsign)
  unfold assemble
  split
  · rw [signField_compose, hsignMod]
  · split <;> rw [signField_compose, hsignMod]

theorem compose_minusZero (c : Cfg) : compose c 1 0 0 = 2 ^ (c.W - 1) := by
  simp [compose_eq]

/-- The magnitude of a non-zero sum is not zero, whatever its sign. -/
theorem assemble_ne_minusZero (hw : w.final c) : assemble c w ≠ compose c 1 0 0 := by
  have ⟨hsign, hmantissa⟩ := hw
  have hmagnitude : assemble c { w with sign := 0 } ≠ 0 := assemble_ne_zero ⟨Nat.zero_le 1, hmantissa⟩
  intro h
  have hone : w.sign = 1 := by
    rw [← signField_assemble (c := c) hsign, h, signField_compose]
  rw [assemble_eq_sign_add, hone, compose_minusZero] at h
  omega

theorem not_finitePattern_canonNan (c : Cfg) : ¬ FinitePattern c (canonNan c) := fun h =>
  not_nanPattern_of_finitePattern h (nanPattern_canonNan c)

theorem response_add_ne_minusZero {x y : Nat} (hx : Fits x c.W) (hy : Fits y c.W) :
    response c (.add x y) ≠ compose c 1 0 0 := by
  have hfinite := finitePattern_zeros c 1
  rcases response_add_cases hx hy with ⟨-, h⟩ | ⟨-, hinf⟩ | ⟨hxFin, hyFin⟩
  · exact fun hzero => not_finitePattern_canonNan c (h ▸ hzero ▸ hfinite)
  · exact fun hzero => not_infPattern_of_finitePattern hfinite (hzero ▸ hinf)
  · rcases response_add_finite_cases hx hy hxFin hyFin with ⟨-, h⟩ | ⟨w, hsum, -, h⟩ <;> rw [h]
    · rw [compose_zero, compose_minusZero]
      exact (Nat.two_pow_pos _).ne
    · exact assemble_ne_minusZero (roundStage_final (normalisedSum_normalised hxFin hyFin hsum))

end MinusZero

/-- Settles O27: special operands answer no zero, a zero sum answers `+0`, and the magnitude of any other is not zero.
-/
theorem addNeverAnswersMinusZero : Obligations.AddNeverAnswersMinusZero := by
  intro c x y
  rw [← response_add_operand]
  exact response_add_ne_minusZero (operand_lt c x) (operand_lt c y)

end Sys2Proof.Machine

/-! PROOFS. ADD is commutative (R196 of spec/46_assemble_add.md): exchanging the operands exchanges the aligned
mantissas, and turns the raw sum and the sign it is counted from together. -/

namespace Sys2Proof.Machine

section Swap

variable {c : Cfg} {x y : Fields} {xs ys : Nat}

theorem align_swap (c : Cfg) (x y : Fields) :
    align c y x =
      { xMantissa := (align c x y).yMantissa
        yMantissa := (align c x y).xMantissa
        xExponent := (align c x y).yExponent
        yExponent := (align c x y).xExponent } := by
  simp only [align_eq, Nat.max_comm]

theorem align_yExponent_eq_xExponent (c : Cfg) (x y : Fields) :
    (align c x y).yExponent = (align c x y).xExponent := by
  rw [align_xExponent, align_yExponent]

theorem subtracts_comm (xs ys : Nat) : subtracts ys xs = subtracts xs ys := bne_comm

/-- Equal signs leave the sum as it is; signs that differ turn it over (R150, R152). -/
theorem combine_swap_cases (hxs : xs ≤ 1) (hys : ys ≤ 1) (a b : Nat) :
    (ys = xs ∧ combine (subtracts ys xs) b a = combine (subtracts xs ys) a b) ∨
    (ys = 1 - xs ∧ combine (subtracts ys xs) b a = -combine (subtracts xs ys) a b) := by
  rw [subtracts_comm]
  by_cases heq : xs = ys
  · have hadd : subtracts xs ys = false := by simp [subtracts, heq]
    rw [hadd, combine_false, combine_false]
    exact .inl ⟨heq.symm, Int.add_comm _ _⟩
  · have hsub : subtracts xs ys = true := by simp [subtracts, heq]
    rw [hsub, combine_true, combine_true]
    exact .inr ⟨by omega, (Int.neg_sub _ _).symm⟩

/-- The sign counted from the other operand is turned back by the other raw sum (R153, R155). -/
theorem resultSign_neg (hxs : xs ≤ 1) {raw : Int} (hne : raw ≠ 0) :
    resultSign (1 - xs) (-raw) = resultSign xs raw := by
  unfold resultSign
  split <;> split <;> omega

/-- The stage reads the raw sum by its magnitude, by whether it is zero and by the sign it leads to. -/
theorem combineNormalize_congr {a a' : Aligned} {xs' ys' : Nat} (hexponent : a'.xExponent = a.xExponent)
    (hmagnitude : (combine (subtracts xs' ys') a'.xMantissa a'.yMantissa).natAbs =
      (combine (subtracts xs ys) a.xMantissa a.yMantissa).natAbs)
    (hsign : combine (subtracts xs ys) a.xMantissa a.yMantissa ≠ 0 →
      resultSign xs' (combine (subtracts xs' ys') a'.xMantissa a'.yMantissa) =
        resultSign xs (combine (subtracts xs ys) a.xMantissa a.yMantissa)) :
    combineNormalize c xs' ys' a' = combineNormalize c xs ys a := by
  by_cases hzero : combine (subtracts xs ys) a.xMantissa a.yMantissa = 0
  · have hzero' : combine (subtracts xs' ys') a'.xMantissa a'.yMantissa = 0 := by omega
    rw [combineNormalize_eq_none.mpr hzero, combineNormalize_eq_none.mpr hzero']
  · have hne' : combine (subtracts xs' ys') a'.xMantissa a'.yMantissa ≠ 0 := by omega
    simp only [combineNormalize, if_neg hzero, if_neg hne', hmagnitude, hexponent, hsign hzero]

theorem combineNormalize_swap (hxs : xs ≤ 1) (hys : ys ≤ 1) (c : Cfg) (x y : Fields) :
    combineNormalize c ys xs (align c y x) = combineNormalize c xs ys (align c x y) := by
  rw [align_swap]
  rcases combine_swap_cases hxs hys (align c x y).xMantissa (align c x y).yMantissa with ⟨hsigns, h⟩ | ⟨hsigns, h⟩
  · exact combineNormalize_congr (align_yExponent_eq_xExponent c x y) (congrArg Int.natAbs h)
      fun _ => by rw [h, hsigns]
  · refine combineNormalize_congr (align_yExponent_eq_xExponent c x y) ?_ fun hne => ?_
    · rw [h, Int.natAbs_neg]
    · subst hsigns
      rw [h, resultSign_neg hxs hne]

theorem addFinite_comm (hx : x.inRange c) (hy : y.inRange c) : addFinite c x y = addFinite c y x := by
  obtain ⟨hxs, -, -⟩ := hx
  obtain ⟨hys, -, -⟩ := hy
  rw [addFinite, addFinite, combineNormalize_swap hxs hys]

end Swap

section PackedOperands

variable {c : Cfg} {x y : Nat}

theorem shortCircuit_of_finitePattern (hx : FinitePattern c x) (hy : FinitePattern c y) :
    shortCircuit c x y = none := by
  have hnan := not_or.mpr ⟨not_nanPattern_of_finitePattern hx, not_nanPattern_of_finitePattern hy⟩
  have hxInf := not_infPattern_of_finitePattern hx
  rw [shortCircuit_eq_ite, if_neg hnan, if_neg (not_and_of_not_left _ hxInf), if_neg hxInf,
    if_neg (not_infPattern_of_finitePattern hy)]

/-- The one case that keeps an operand whichever comes first is that of two infinities of one sign, which are equal. -/
theorem shortCircuit_comm (hx : Fits x c.W) (hy : Fits y c.W) : shortCircuit c x y = shortCircuit c y x := by
  rcases shortCircuit_cases c x y with
    ⟨hnan, h⟩ | ⟨hxInf, hyInf, hsame, -⟩ | ⟨hxInf, hyInf, hopposite, h⟩ | ⟨hxInf, hyFin, h⟩ | ⟨hxFin, hyInf, h⟩ |
      ⟨hxFin, hyFin, h⟩
  · rw [h, shortCircuit_of_nanPattern hnan.symm]
  · rw [eq_of_infPattern_of_signField_eq hx hy hxInf hyInf hsame]
  · rw [h, shortCircuit_of_infPattern hyInf hxInf, if_neg hopposite.symm]
  · rw [h, shortCircuit_of_finitePattern_of_infPattern hyFin hxInf]
  · rw [h, shortCircuit_of_infPattern_of_finitePattern hyInf hxFin]
  · rw [h, shortCircuit_of_finitePattern hyFin hxFin]

theorem addPacked_comm (hx : Fits x c.W) (hy : Fits y c.W) : addPacked c x y = addPacked c y x := by
  rw [addPacked, addPacked, shortCircuit_comm hx hy, addFinite_comm (decompose_inRange c x) (decompose_inRange c y)]

theorem response_add_comm (c : Cfg) (x y : Nat) : response c (.add x y) = response c (.add y x) :=
  addPacked_comm (operand_lt c x) (operand_lt c y)

end PackedOperands

/-- Settles O29: the responses are equal, and an operation is its response. -/
theorem addIsCommutative : Obligations.AddIsCommutative := by
  intro x y s
  rw [exec_eq_respond, exec_eq_respond, response_add_comm]

end Sys2Proof.Machine

/-! PROOFS. Adding a zero (R197 of spec/46_assemble_add.md): the other operand is itself the sum, and no other pattern
has its value. -/

namespace Sys2Proof.Machine

section UniqueValue

variable {c : Cfg} {v v' : Nat}

/-- A stored exponent bounds the magnitude from above: the next exponent's smallest magnitude is not reached. -/
theorem natAbs_units_lt_of_exponentField (c : Cfg) (v : Nat) :
    (units c v).natAbs < 2 ^ (c.P - 1) * 2 ^ exponentField c v := by
  have ⟨_, _, hfraction⟩ := decompose_inRange c v
  rw [natAbs_units, trueMantissa_eq c _ hfraction, decompose_exponent]
  rcases Nat.eq_zero_or_pos (exponentField c v) with hzero | hpos
  · simpa [hzero, effectiveExponent] using hfraction
  · obtain ⟨e, he⟩ := Nat.exists_eq_add_of_le' hpos
    rw [if_neg hpos.ne', effectiveExponent_of_ne_zero hpos.ne', he, Nat.add_sub_cancel, Nat.pow_succ, ← Nat.mul_assoc,
      Nat.mul_right_comm]
    exact Nat.mul_lt_mul_of_pos_right (by omega) (Nat.two_pow_pos e)

/-- A normal exponent bounds the magnitude from below: the implied bit counts. -/
theorem le_natAbs_units_of_exponentField {e : Nat} (h : exponentField c v = e + 1) :
    2 ^ (c.P - 1) * 2 ^ e ≤ (units c v).natAbs := by
  have ⟨_, _, hfraction⟩ := decompose_inRange c v
  have hne : (decompose c v).exponent ≠ 0 := by rw [decompose_exponent, h]; omega
  rw [natAbs_units, trueMantissa_eq c _ hfraction, if_neg hne, effectiveExponent_of_ne_zero hne, decompose_exponent, h,
    Nat.add_sub_cancel]
  exact Nat.mul_le_mul_right _ (Nat.le_add_right _ _)

theorem natAbs_units_lt_of_exponentField_lt (h : exponentField c v < exponentField c v') :
    (units c v).natAbs < (units c v').natAbs := by
  obtain ⟨e, he⟩ := Nat.exists_eq_add_of_le' (Nat.zero_lt_of_lt h)
  calc (units c v).natAbs < 2 ^ (c.P - 1) * 2 ^ exponentField c v := natAbs_units_lt_of_exponentField c v
    _ ≤ 2 ^ (c.P - 1) * 2 ^ e := Nat.mul_le_mul_left _ (Nat.pow_le_pow_right Nat.two_pos (by omega))
    _ ≤ (units c v').natAbs := le_natAbs_units_of_exponentField he

theorem exponentField_eq_of_natAbs_units_eq (h : (units c v).natAbs = (units c v').natAbs) :
    exponentField c v = exponentField c v' := by
  rcases lt_trichotomy (exponentField c v) (exponentField c v') with hlt | heq | hgt
  · exact absurd h (natAbs_units_lt_of_exponentField_lt hlt).ne
  · exact heq
  · exact absurd h (natAbs_units_lt_of_exponentField_lt hgt).ne'

theorem fractionField_eq_of_natAbs_units_eq (h : (units c v).natAbs = (units c v').natAbs) :
    fractionField c v = fractionField c v' := by
  have hexponent := exponentField_eq_of_natAbs_units_eq h
  have ⟨_, _, hfraction⟩ := decompose_inRange c v
  have ⟨_, _, hfraction'⟩ := decompose_inRange c v'
  rw [natAbs_units, natAbs_units, decompose_exponent, decompose_exponent, hexponent] at h
  have hmantissa := Nat.eq_of_mul_eq_mul_right (Nat.two_pow_pos _) h
  rw [trueMantissa_eq c _ hfraction, trueMantissa_eq c _ hfraction', decompose_fraction,
    decompose_fraction] at hmantissa
  split at hmantissa <;> omega

/-- The sign of a value that has one is its sign bit. -/
theorem signField_eq_one_iff_units_neg (hne : units c v ≠ 0) : signField c v = 1 ↔ units c v < 0 := by
  have hunits : units c v = signFactor (signField c v) * (units c v).natAbs := by
    rw [← decompose_sign, natAbs_units]
    push_cast
    exact mul_assoc _ _ _
  unfold signFactor at hunits
  split at hunits <;> omega

/-- No two patterns have one value, but for the zeros. -/
theorem eq_of_units_eq (hv : Fits v c.W) (hv' : Fits v' c.W) (h : units c v = units c v') (hne : units c v ≠ 0) :
    v = v' := by
  have hmagnitude := congrArg Int.natAbs h
  have hsign : signField c v = signField c v' := by
    have hiff := signField_eq_one_iff_units_neg hne
    have hiff' := signField_eq_one_iff_units_neg (h ▸ hne)
    rw [h] at hiff
    have hbits : signField c v < 2 ∧ signField c v' < 2 := ⟨Nat.mod_lt _ Nat.two_pos, Nat.mod_lt _ Nat.two_pos⟩
    omega
  rw [← compose_decompose hv, ← compose_decompose hv', decompose_eq, decompose_eq, hsign,
    exponentField_eq_of_natAbs_units_eq hmagnitude, fractionField_eq_of_natAbs_units_eq hmagnitude]

end UniqueValue

section Zeros

variable {c : Cfg} {x : Nat}

/-- A zero of either sign (R62). -/
abbrev ZeroPattern (c : Cfg) (v : Nat) : Prop := v = 0 ∨ v = 2 ^ (c.W - 1)

theorem zeroPattern_iff_exists_compose : ZeroPattern c x ↔ ∃ sg ≤ 1, x = compose c sg 0 0 := by
  constructor
  · rintro (rfl | rfl)
    · exact ⟨0, Nat.zero_le 1, (compose_zero c).symm⟩
    · exact ⟨1, le_rfl, (compose_minusZero c).symm⟩
  · rintro ⟨sg, hsg, rfl⟩
    interval_cases sg
    · exact .inl (compose_zero c)
    · exact .inr (compose_minusZero c)

theorem zeroPattern_facts (h : ZeroPattern c x) : Fits x c.W ∧ FinitePattern c x ∧ units c x = 0 := by
  obtain ⟨sg, hsg, rfl⟩ := zeroPattern_iff_exists_compose.mp h
  refine ⟨compose_fits c sg 0 0, finitePattern_zeros c sg, ?_⟩
  rw [units_compose c hsg (Nat.two_pow_pos _) (Nat.two_pow_pos _)]
  simp

/-- Only the zeros have the value 0. -/
theorem zeroPattern_of_units_eq_zero (hx : Fits x c.W) (h : units c x = 0) : ZeroPattern c x := by
  have hmagnitude : (units c x).natAbs = (units c 0).natAbs := by rw [h, units_zero]
  have hsign : signField c x ≤ 1 := Nat.le_of_lt_succ (Nat.mod_lt _ Nat.two_pos)
  refine zeroPattern_iff_exists_compose.mpr ⟨signField c x, hsign, ?_⟩
  have hpacked := compose_decompose hx
  rw [decompose_eq, exponentField_eq_of_natAbs_units_eq hmagnitude,
    fractionField_eq_of_natAbs_units_eq hmagnitude] at hpacked
  simpa [exponentField, fractionField] using hpacked.symm

theorem response_add_zero_of_zero {z : Nat} (hx : ZeroPattern c x) (hz : ZeroPattern c z) :
    response c (.add x z) = 0 := by
  obtain ⟨hxFits, hxFin, hxUnits⟩ := zeroPattern_facts hx
  obtain ⟨hzFits, hzFin, hzUnits⟩ := zeroPattern_facts hz
  exact response_add_of_units_eq_zero hxFits hzFits hxFin hzFin (by rw [hxUnits, hzUnits, add_zero])

/-- A finite operand is its own sum with a zero, so the answer has its value (R182) and is its pattern. -/
theorem response_add_zero {z : Nat} (hxFits : Fits x c.W) (hx : FinitePattern c x) (hne : ¬ ZeroPattern c x)
    (hz : ZeroPattern c z) : response c (.add x z) = x := by
  obtain ⟨hzFits, hzFin, hzUnits⟩ := zeroPattern_facts hz
  have hrep : units c x + units c z = units c x := by rw [hzUnits, add_zero]
  obtain ⟨-, hunits⟩ := addOfRepresentableSumIsExact c x z x hxFits hzFits hxFits hx hzFin hx hrep
  refine (eq_of_units_eq hxFits (response_fits c _) hunits.symm ?_).symm
  exact mt (zeroPattern_of_units_eq_zero hxFits) hne

end Zeros

/-- Settles O30, for a second operand that is a zero of either sign. -/
theorem addOfZeroIsTheOtherOperand : Obligations.AddOfZeroIsTheOtherOperand := by
  intro x s hxFits hx
  have hplus : ZeroPattern s.cfg 0 := .inl rfl
  have hminus : ZeroPattern s.cfg (2 ^ (s.cfg.W - 1)) := .inr rfl
  simp only [exec_eq_respond]
  refine ⟨fun hne hneMinus => ?_, fun hzero => ?_⟩
  · have hnot : ¬ ZeroPattern s.cfg x := not_or.mpr ⟨hne, hneMinus⟩
    rw [response_add_zero hxFits hx hnot hplus, response_add_zero hxFits hx hnot hminus]
    exact ⟨rfl, rfl⟩
  · rw [response_add_zero_of_zero hzero hplus, response_add_zero_of_zero hzero hminus]
    exact ⟨rfl, rfl⟩

end Sys2Proof.Machine

/-! PROOFS. Overflow (R188 of spec/46_assemble_add.md with R172 to R175 of spec/45_round.md): the answer is an infinity
exactly when the incremented magnitude passes the largest finite one, and where the sum lies next to that one decides
it. -/

namespace Sys2Proof.Machine

section RoundedMagnitude

variable {c : Cfg} {x y : Nat} {w : Working}

/-- An infinity is packed for an exponent of all ones or more, and for no other (R192). -/
theorem infPattern_assemble_iff (hw : w.final c) : InfPattern c (assemble c w) ↔ 2 ^ c.E - 1 ≤ w.exponent := by
  refine ⟨fun hinf => ?_, infPattern_assemble⟩
  by_contra hlt
  exact not_infPattern_of_finitePattern (finitePattern_assemble hw (not_le.mp hlt)) hinf

/-- A final mantissa has its implied bit set, so its exponent is all ones or more exactly when its magnitude is more
than the largest finite one. -/
theorem two_pow_mul_le_iff_allOnes_le {m e : Nat} (hlow : 2 ^ (c.P - 1) ≤ m) (hhigh : m < 2 ^ c.P) (hpos : 1 ≤ e) :
    2 ^ c.P * 2 ^ (2 ^ c.E - 3) ≤ m * 2 ^ (e - 1) ↔ 2 ^ c.E - 1 ≤ e := by
  have hE := c.four_le_two_pow_E
  constructor
  · intro hle
    by_contra hlt
    have hpow : 2 ^ (e - 1) ≤ 2 ^ (2 ^ c.E - 3) := Nat.pow_le_pow_right Nat.two_pos (by omega)
    have hless : m * 2 ^ (e - 1) < 2 ^ c.P * 2 ^ (2 ^ c.E - 3) :=
      Nat.mul_lt_mul_of_lt_of_le hhigh hpow (Nat.two_pow_pos _)
    omega
  · intro hle
    calc 2 ^ c.P * 2 ^ (2 ^ c.E - 3) = 2 ^ (c.P - 1) * 2 ^ (2 ^ c.E - 3 + 1) := by
          rw [c.two_pow_P, Nat.pow_succ]; ring
      _ ≤ m * 2 ^ (e - 1) := Nat.mul_le_mul hlow (Nat.pow_le_pow_right Nat.two_pos (by omega))

/-- From the normal range up, overflow is read off the incremented magnitude, carry or not (R178, R188). -/
theorem infPattern_assemble_roundStage_iff {k : Nat} (hw : w.normalised c) (hk : w.exponent = (k + 1 : Nat)) :
    InfPattern c (assemble c (roundStage c w)) ↔
      maxMagnitude c + 2 ^ (2 ^ c.E - 3) ≤ roundIncrement c w / 8 * 2 ^ k := by
  have hfinal := roundStage_final hw
  have ⟨_, hlow, hhigh, _, _⟩ := hfinal
  obtain ⟨e, hpos, hexponent, hvalue, -⟩ := roundStage_value hw hk
  have hcast := c.cast_allOnes
  rw [infPattern_assemble_iff hfinal, maxMagnitude_add_unit, ← hvalue,
    two_pow_mul_le_iff_allOnes_le hlow hhigh hpos, hexponent]
  omega

end RoundedMagnitude

/-- Where a sum lies whose retained part `n` has its implied bit set and counts the unit `2 ^ k`: the next multiple of
the unit is still finite, or the retained part is the largest finite magnitude itself, or it is beyond it. -/
theorem retained_cases {c : Cfg} {n : Nat} (hlow : 2 ^ (c.P - 1) ≤ n) (hhigh : n < 2 ^ c.P) (k : Nat) :
    n * 2 ^ k + 2 ^ k ≤ maxMagnitude c ∨
    (n * 2 ^ k = maxMagnitude c ∧ 2 ^ k = 2 ^ (2 ^ c.E - 3) ∧ n % 2 = 1) ∨
    maxMagnitude c + 2 ^ (2 ^ c.E - 3) ≤ n * 2 ^ k := by
  have hP := c.two_pow_P
  rw [maxMagnitude_add_unit, maxMagnitude, ← Nat.succ_mul]
  rcases lt_trichotomy k (2 ^ c.E - 3) with hbelow | rfl | habove
  · left
    calc (n + 1) * 2 ^ k ≤ 2 ^ c.P * 2 ^ k := Nat.mul_le_mul_right _ hhigh
      _ = 2 ^ (c.P - 1) * 2 ^ (k + 1) := by rw [hP, Nat.pow_succ]; ring
      _ ≤ (2 ^ c.P - 1) * 2 ^ (2 ^ c.E - 3) :=
          Nat.mul_le_mul (by omega) (Nat.pow_le_pow_right Nat.two_pos hbelow)
  · rcases (Nat.le_sub_one_of_lt hhigh).lt_or_eq with hlt | rfl
    · exact .inl (Nat.mul_le_mul_right _ hlt)
    · exact .inr (.inl ⟨rfl, rfl, by omega⟩)
  · right; right
    calc 2 ^ c.P * 2 ^ (2 ^ c.E - 3) = 2 ^ (c.P - 1) * 2 ^ (2 ^ c.E - 3 + 1) := by rw [hP, Nat.pow_succ]; ring
      _ ≤ n * 2 ^ k := Nat.mul_le_mul hlow (Nat.pow_le_pow_right Nat.two_pos habove)

/-- The sum `total` rounded in the policy's direction with an unbounded exponent lies beyond the largest finite value:
R188 in the thresholds of R172 to R175. -/
def RoundsBeyondLargest (c : Cfg) (total : Int) : Prop :=
  match c.rm with
  | .rne => 2 * maxFiniteUnits c + 2 ^ (2 ^ c.E - 3) ≤ 2 * |total|
  | .rdn => maxFiniteUnits c + 2 ^ (2 ^ c.E - 3) ≤ total ∨ total < -maxFiniteUnits c
  | .rup => maxFiniteUnits c < total ∨ total ≤ -(maxFiniteUnits c + 2 ^ (2 ^ c.E - 3))
  | .rtz => maxFiniteUnits c + 2 ^ (2 ^ c.E - 3) ≤ |total|

section Thresholds

variable {c : Cfg} {x y : Nat} {w : Working} {total : Int}

/-- No policy rounds a finite magnitude beyond the largest. -/
theorem not_roundsBeyondLargest_of_le (h : total.natAbs ≤ maxMagnitude c) : ¬ RoundsBeyondLargest c total := by
  have hunit : (0 : Int) < 2 ^ (2 ^ c.E - 3) := by positivity
  unfold RoundsBeyondLargest
  rw [maxFiniteUnits_eq, Int.abs_eq_natAbs]
  split <;> omega

theorem roundsBeyondLargest_of_ge (h : maxMagnitude c + 2 ^ (2 ^ c.E - 3) ≤ total.natAbs) :
    RoundsBeyondLargest c total := by
  have hunit : (0 : Int) < 2 ^ (2 ^ c.E - 3) := by positivity
  zify at h
  unfold RoundsBeyondLargest
  rw [maxFiniteUnits_eq]
  rcases abs_cases total with ⟨habs, -⟩ | ⟨habs, -⟩ <;> split <;> omega

/-- A sum whose retained part is the largest finite value passes it exactly when the policy rounds up. -/
theorem roundsBeyondLargest_iff_roundUp (hsign : w.sign ≤ 1) (htotal : total = signFactor w.sign * total.natAbs)
    (hodd : w.mantissa / 8 % 2 = 1)
    (hdropped : DroppedPart (w.mantissa % 8) total.natAbs (maxMagnitude c) (2 ^ (2 ^ c.E - 3))) :
    RoundsBeyondLargest c total ↔ roundUp c.rm w.sign (roundBits w.mantissa) = true := by
  obtain ⟨hlo, hlt, hexact, hhalf, hmore⟩ := hdropped
  have hunit : ((2 ^ (2 ^ c.E - 3) : Nat) : Int) = 2 ^ (2 ^ c.E - 3) := by push_cast; rfl
  have hsides : (w.sign = 0 ∧ total = total.natAbs) ∨ (w.sign = 1 ∧ total = -total.natAbs) := by
    rcases Nat.le_one_iff_eq_zero_or_eq_one.mp hsign with h | h <;> rw [h] at htotal
    · exact .inl ⟨h, by rwa [signFactor_zero, one_mul] at htotal⟩
    · exact .inr ⟨h, by rwa [signFactor_one, neg_one_mul] at htotal⟩
  unfold RoundsBeyondLargest
  rw [maxFiniteUnits_eq, ← hunit, Int.abs_eq_natAbs]
  split
  next hrm => rw [hrm, roundUp_rne_iff]; omega
  next hrm => rw [hrm, roundUp_rdn_iff]; omega
  next hrm => rw [hrm, roundUp_rup_iff]; omega
  next hrm => rw [hrm, roundUp]; simp only [Bool.false_eq_true, iff_false]; omega

/-- The incremented magnitude passes the largest finite one exactly when the rounded sum does. -/
theorem roundsBeyondLargest_iff_of_normal {k : Nat} (hx : FinitePattern c x) (hy : FinitePattern c y)
    (h : normalisedSum c x y = some w) (hk : w.exponent = (k + 1 : Nat)) :
    RoundsBeyondLargest c (units c x + units c y) ↔
      maxMagnitude c + 2 ^ (2 ^ c.E - 3) ≤ roundIncrement c w / 8 * 2 ^ k := by
  have hw := normalisedSum_normalised hx hy h
  have ⟨hlow, hhigh⟩ := div_eight_range_of_normalised hw
  have hdropped := droppedPart_of_normal hx hy h hk
  have ⟨hlo, hlt, _, _, _⟩ := hdropped
  have hmagnitude := roundIncrement_mul_cases c w (2 ^ k)
  have hunit := Nat.two_pow_pos (2 ^ c.E - 3)
  rcases retained_cases hlow hhigh k with hfinite | ⟨hlargest, hunitEq, hodd⟩ | hbeyond
  · exact iff_of_false (not_roundsBeyondLargest_of_le (by omega)) (by omega)
  · rw [hlargest, hunitEq] at hdropped
    rw [roundsBeyondLargest_iff_roundUp hw.1 (units_add_eq_signFactor_mul h) hodd hdropped]
    rcases hmagnitude with ⟨hup, -, hvalue⟩ | ⟨hdown, -, hvalue⟩
    · exact iff_of_true hup (by omega)
    · exact iff_of_false hdown (by omega)
  · exact iff_of_true (roundsBeyondLargest_of_ge (by omega)) (by omega)

/-- Below the normal range the sum has no more than `P` bits. -/
theorem natAbs_units_add_le_of_nonpos (hx : FinitePattern c x) (hy : FinitePattern c y)
    (h : normalisedSum c x y = some w) (hlow : w.exponent ≤ 0) :
    (units c x + units c y).natAbs ≤ maxMagnitude c := by
  have ⟨_, _, hhigh, _, _⟩ := normalisedSum_normalised hx hy h
  rw [mantissa_eq_of_exponent_nonpos hx hy h hlow, Nat.pow_add] at hhigh
  calc (units c x + units c y).natAbs
      ≤ (units c x + units c y).natAbs * 2 ^ (1 - w.exponent).toNat := Nat.le_mul_of_pos_right _ (Nat.two_pow_pos _)
    _ ≤ 2 ^ c.P - 1 := by omega
    _ ≤ maxMagnitude c := Nat.le_mul_of_pos_right _ (Nat.two_pow_pos _)

theorem infPattern_assemble_roundStage_iff_beyond (hx : FinitePattern c x) (hy : FinitePattern c y)
    (h : normalisedSum c x y = some w) :
    InfPattern c (assemble c (roundStage c w)) ↔ RoundsBeyondLargest c (units c x + units c y) := by
  have hw := normalisedSum_normalised hx hy h
  rcases le_or_gt w.exponent 0 with hlow | hpos
  · have hE : (4 : Int) ≤ 2 ^ c.E := by exact_mod_cast c.four_le_two_pow_E
    rw [infPattern_assemble_iff (roundStage_final hw),
      roundStage_exponent_of_exact hw (mantissa_mod_eight_of_nonpos hx hy h hlow)]
    exact iff_of_false (by omega) (not_roundsBeyondLargest_of_le (natAbs_units_add_le_of_nonpos hx hy h hlow))
  · obtain ⟨k, hk⟩ := Int.eq_succ_of_zero_lt hpos
    rw [infPattern_assemble_roundStage_iff hw hk, roundsBeyondLargest_iff_of_normal hx hy h hk]

end Thresholds

section OverflowingAnswer

variable {c : Cfg} {x y : Nat}

theorem infPattern_response_add_iff (hxFits : Fits x c.W) (hyFits : Fits y c.W) (hx : FinitePattern c x)
    (hy : FinitePattern c y) :
    InfPattern c (response c (.add x y)) ↔ RoundsBeyondLargest c (units c x + units c y) := by
  rcases response_add_finite_cases hxFits hyFits hx hy with ⟨hzero, h⟩ | ⟨w, hsum, -, h⟩ <;> rw [h]
  · rw [hzero]
    exact iff_of_false (not_infPattern_of_finitePattern (finitePattern_zeros c 0))
      (not_roundsBeyondLargest_of_le (Nat.zero_le _))
  · exact infPattern_assemble_roundStage_iff_beyond hx hy hsum

theorem normalisedSum_sign_eq_one_iff_units {w : Working} (h : normalisedSum c x y = some w) :
    w.sign = 1 ↔ units c x + units c y < 0 := by
  rw [normalisedSum_sign_eq_one_iff h, realValue_add_eq_units, ← not_le, ← not_le,
    mul_nonneg_iff_of_pos_right (bitZeroUnit_pos c 4), Int.cast_nonneg_iff]

/-- The sign of the answer is that of the sum, a zero sum counting as positive (R154, R188). -/
theorem signField_response_add_eq_one_iff (hxFits : Fits x c.W) (hyFits : Fits y c.W) (hx : FinitePattern c x)
    (hy : FinitePattern c y) :
    signField c (response c (.add x y)) = 1 ↔ units c x + units c y < 0 := by
  rcases response_add_finite_cases hxFits hyFits hx hy with ⟨hzero, h⟩ | ⟨w, hsum, -, h⟩ <;> rw [h]
  · rw [hzero, signField_compose]
    decide
  · have ⟨hsign, _⟩ := roundStage_final (normalisedSum_normalised hx hy hsum)
    rw [signField_assemble hsign, roundStage_sign]
    exact normalisedSum_sign_eq_one_iff_units hsum

end OverflowingAnswer

/-- Settles O32: below the normal range no sum is large enough, and from there up the incremented magnitude passes the
largest finite one exactly when the thresholds say so. -/
theorem addOverflowsToInfinityBeyondTheLargestFinite : Obligations.AddOverflowsToInfinityBeyondTheLargestFinite :=
  fun _ _ _ hxFits hyFits hx hy =>
    ⟨infPattern_response_add_iff hxFits hyFits hx hy, fun _ => signField_response_add_eq_one_iff hxFits hyFits hx hy⟩

end Sys2Proof.Machine

/-! PROOFS. The four policies side by side (R203 of spec/46_assemble_add.md): the policy reaches the answer through the
increment alone, which moves the packed word by one pattern or leaves it, the largest finite value and infinity
included. -/

namespace Sys2Proof.Machine

section PackedSuccessor

variable {c : Cfg} {w : Working}

/-- A storable exponent counts the implied bit in, so that exponent and mantissa add up; the infinity of the next binade
is in line with them. -/
theorem assemble_eq_add {e : Nat} (hw : w.final c) (hexponent : w.exponent = (e + 1 : Nat))
    (hlt : e + 1 < 2 ^ c.E - 1 ∨ (e + 1 = 2 ^ c.E - 1 ∧ w.mantissa = 2 ^ (c.P - 1))) :
    assemble c w = w.sign * 2 ^ (c.W - 1) + e * 2 ^ (c.P - 1) + w.mantissa := by
  have ⟨_, hlow, _, _, _⟩ := hw
  have hsucc : (e + 1) * 2 ^ (c.P - 1) = e * 2 ^ (c.P - 1) + 2 ^ (c.P - 1) := Nat.succ_mul _ _
  rcases hlt with hstorable | ⟨htop, hmantissa⟩
  · rw [assemble_eq_of_normal hw hexponent (by omega) hstorable]
    omega
  · have hoverflow : 2 ^ c.E - 1 ≤ w.exponent := by
      rw [hexponent, htop, c.cast_allOnes]
    rw [assemble_eq_of_overflow hw hoverflow, ← htop, hmantissa, hsucc, Nat.add_assoc]

/-- A rounding carry packs to the next pattern too, so an answer of a storable exponent is the retained part,
incremented or not, at one place in the word (R178, R189). -/
theorem assemble_roundStage_eq_add {k : Nat} (hw : w.normalised c) (hk : w.exponent = (k + 1 : Nat))
    (hlt : w.exponent < 2 ^ c.E - 1) :
    assemble c (roundStage c w) = w.sign * 2 ^ (c.W - 1) + k * 2 ^ (c.P - 1) + roundIncrement c w / 8 := by
  have hfinal := roundStage_final hw
  have hcast := c.cast_allOnes
  cases hcarry : (roundIncrement c w >>> 3).testBit c.P with
  | true =>
    have hP := c.two_pow_P
    have hincrement := (carry_iff_eq_two_pow hw).mp hcarry
    have hsucc : (k + 1) * 2 ^ (c.P - 1) = k * 2 ^ (c.P - 1) + 2 ^ (c.P - 1) := Nat.succ_mul _ _
    rw [roundStage_of_carry hw hcarry] at hfinal ⊢
    rw [assemble_eq_add (e := k + 1) hfinal (by dsimp only; omega) (by dsimp only; omega), hincrement]
    dsimp only
    omega
  | false =>
    rw [roundStage_of_no_carry hcarry] at hfinal ⊢
    rw [assemble_eq_add hfinal hk (by omega)]

end PackedSuccessor

section Policies

variable {c : Cfg} {x y z : Nat} {w : Working} (rm : RoundingPolicy)

theorem normLoop_withPolicy (c : Cfg) (fuel m : Nat) (e : Int) :
    normLoop { c with rm := rm } fuel m e = normLoop c fuel m e := by
  induction fuel generalizing m e with
  | zero => rfl
  | succ fuel ih => rw [normLoop, normLoop, ih]

/-- The Rounder is the only stage that reads the policy: not the stages before it. -/
theorem normalisedSum_withPolicy (c : Cfg) (x y : Nat) :
    normalisedSum { c with rm := rm } x y = normalisedSum c x y := by
  simp only [normalisedSum, combineNormalize, normLoop_withPolicy]
  rfl

/-- Nor final assembly. -/
theorem assemble_withPolicy (c : Cfg) (w : Working) : assemble { c with rm := rm } w = assemble c w := rfl

/-- Toward zero the retained part stays as it is (R175). -/
theorem roundIncrement_rtz (c : Cfg) (w : Working) : roundIncrement { c with rm := .rtz } w = w.mantissa :=
  if_neg Bool.false_ne_true

theorem le_roundStage_exponent (c : Cfg) (w : Working) : w.exponent ≤ (roundStage c w).exponent := by
  unfold roundStage
  split <;> dsimp only <;> omega

theorem assemble_roundStage_of_overflow (h : 2 ^ c.E - 1 ≤ w.exponent) :
    assemble c (roundStage c w) = compose c w.sign c.expAllOnes 0 := by
  rw [assemble_of_overflow (h.trans (le_roundStage_exponent c w)), roundStage_sign]

/-- Under any policy a non-zero sum is answered as toward zero or with the next pattern: an infinity and an exact sum
leave no difference, and elsewhere the increment is the difference. -/
theorem assemble_roundStage_eq_rtz_or_succ (hx : FinitePattern c x) (hy : FinitePattern c y)
    (h : normalisedSum c x y = some w) :
    assemble { c with rm := rm } (roundStage { c with rm := rm } w) =
        assemble { c with rm := .rtz } (roundStage { c with rm := .rtz } w) ∨
      assemble { c with rm := rm } (roundStage { c with rm := rm } w) =
        assemble { c with rm := .rtz } (roundStage { c with rm := .rtz } w) + 1 := by
  have hw := normalisedSum_normalised hx hy h
  have hw' (rm : RoundingPolicy) : w.normalised { c with rm := rm } := hw
  rcases le_or_gt (2 ^ c.E - 1) w.exponent with hlarge | hlt
  · left
    rw [assemble_roundStage_of_overflow (c := { c with rm := rm }) hlarge,
      assemble_roundStage_of_overflow (c := { c with rm := .rtz }) hlarge]
    rfl
  rcases le_or_gt w.exponent 0 with hlow | hpos
  · left
    have hexact := mantissa_mod_eight_of_nonpos hx hy h hlow
    rw [roundStage_of_exact (hw' rm) hexact, roundStage_of_exact (hw' .rtz) hexact, assemble_withPolicy rm,
      assemble_withPolicy .rtz]
  · obtain ⟨k, hk⟩ := Int.eq_succ_of_zero_lt hpos
    rw [assemble_roundStage_eq_add (hw' rm) hk hlt, assemble_roundStage_eq_add (hw' .rtz) hk hlt, roundIncrement_rtz]
    rcases roundIncrement_div_eight_cases { c with rm := rm } w with ⟨-, hup⟩ | ⟨-, hdown⟩
    · exact .inr (by rw [hup]; rfl)
    · exact .inl (by rw [hdown]; rfl)

theorem response_add_rtz_or_succ (hxFits : Fits x c.W) (hyFits : Fits y c.W) (hx : FinitePattern c x)
    (hy : FinitePattern c y) :
    response { c with rm := rm } (.add x y) = response { c with rm := .rtz } (.add x y) ∨
      (units c x + units c y ≠ 0 ∧
        response { c with rm := rm } (.add x y) = response { c with rm := .rtz } (.add x y) + 1) := by
  by_cases hzero : units c x + units c y = 0
  · left
    rw [response_add_of_units_eq_zero (c := { c with rm := rm }) hxFits hyFits hx hy hzero,
      response_add_of_units_eq_zero (c := { c with rm := .rtz }) hxFits hyFits hx hy hzero]
  · obtain ⟨w, hw⟩ := Option.ne_none_iff_exists'.mp (mt normalisedSum_eq_none_iff_units.mp hzero)
    have hsum (rm : RoundingPolicy) : normalisedSum { c with rm := rm } x y = some w :=
      (normalisedSum_withPolicy rm c x y).trans hw
    rw [response_add_of_normalisedSum (c := { c with rm := rm }) hxFits hyFits hx hy (hsum rm),
      response_add_of_normalisedSum (c := { c with rm := .rtz }) hxFits hyFits hx hy (hsum .rtz)]
    exact (assemble_roundStage_eq_rtz_or_succ rm hx hy hw).imp_right fun hsucc => ⟨hzero, hsucc⟩

theorem finitePattern_of_shortCircuit_eq_none (h : shortCircuit c x y = none) :
    FinitePattern c x ∧ FinitePattern c y := by
  rcases shortCircuit_cases c x y with
    ⟨-, hsome⟩ | ⟨-, -, -, hsome⟩ | ⟨-, -, -, hsome⟩ | ⟨-, -, hsome⟩ | ⟨-, -, hsome⟩ | ⟨hx, hy, -⟩
  case inr.inr.inr.inr.inr => exact ⟨hx, hy⟩
  all_goals cases hsome.symm.trans h

/-- The short-circuit does not read the policy. -/
theorem response_add_withPolicy_of_shortCircuit (hx : Fits x c.W) (hy : Fits y c.W) (h : shortCircuit c x y = some z) :
    response { c with rm := rm } (.add x y) = z :=
  response_add_of_shortCircuit (c := { c with rm := rm }) hx hy h

end Policies

/-- Settles O33: special operands and predicates do not reach the Rounder, and the Rounder's increment is one pattern.
-/
theorem policiesDifferByAtMostOneUnit : Obligations.PoliciesDifferByAtMostOneUnit := by
  refine fun c rm x y hxFits hyFits => ⟨?_, rfl, rfl, rfl⟩
  cases h : shortCircuit c x y with
  | some z =>
    left
    rw [response_add_withPolicy_of_shortCircuit rm hxFits hyFits h,
      response_add_withPolicy_of_shortCircuit .rtz hxFits hyFits h]
  | none =>
    obtain ⟨hx, hy⟩ := finitePattern_of_shortCircuit_eq_none h
    exact (response_add_rtz_or_succ rm hxFits hyFits hx hy).imp_right fun hsucc => ⟨hx, hy, hsucc⟩

end Sys2Proof.Machine

/-! PROOFS. What a step does (R210, R216 of spec/60_exceptions.md, R237 of spec/70_reset_and_hazards.md): one equation
per branch, and with them that no step of a well-formed port stops. -/

namespace Sys2Proof

theorem decode_of_not_fits {W w : Nat} (h : ¬ Fits w (2 + 2 * W)) : decode W w = .error .wrongWidth := if_neg h

namespace Machine

section StepEquations

variable {s : State} {w : Nat} {rest : List Nat} {i : Instr}

/-- The converse of `fetch_eq_some`. -/
theorem fetch_of_requests_eq_cons (h : s.requests = w :: rest) : fetch s = some (w, { s with requests := rest }) := by
  simp [fetch, h]

theorem step_of_resetInput (h : s.resetInput = true) : step s = .next s.clear := if_pos h

theorem step_of_requests_eq_nil (hr : s.resetInput = false) (h : s.requests = []) : step s = .next s := by
  simp [step, hr, fetch_eq_none.mpr h]

theorem step_of_decode_eq_ok (hr : s.resetInput = false) (h : s.requests = w :: rest) (hd : decode s.cfg.W w = .ok i) :
    step s = exec i { s with requests := rest } := by
  simp [step, hr, fetch_of_requests_eq_cons h, hd]

theorem step_of_not_fits (hr : s.resetInput = false) (h : s.requests = w :: rest) (hw : ¬ Fits w (2 + 2 * s.cfg.W)) :
    step s = .refused .notARequestWord := by
  simp [step, hr, fetch_of_requests_eq_cons h, decode_of_not_fits hw]

theorem exec_eq_answering (i : Instr) (s : State) : exec i s = .next (s.answering (response s.cfg i)) :=
  exec_eq_respond i s

/-- A step that accepts a request answers it. -/
theorem step_eq_answering (hr : s.resetInput = false) (h : s.requests = w :: rest) (hd : decode s.cfg.W w = .ok i) :
    step s = .next (State.answering { s with requests := rest } (response s.cfg i)) :=
  (step_of_decode_eq_ok hr h hd).trans (exec_eq_answering i _)

/-- With request words on its port, an instance out of reset answers the oldest one. -/
theorem exists_step_eq_answering (hs : s.Inv) (hr : s.resetInput = false) (h : s.requests = w :: rest) :
    ∃ r, Fits r s.cfg.W ∧ step s = .next (State.answering { s with requests := rest } r) := by
  have hd := decode_of_fits (fetch_inv hs (fetch_of_requests_eq_cons h)).1
  exact ⟨_, response_fits s.cfg _, step_eq_answering hr h hd⟩

theorem safe_of_inv (hs : s.Inv) : Safe s := by
  cases hr : s.resetInput with
  | true => exact ⟨_, step_of_resetInput hr⟩
  | false =>
    cases hq : s.requests with
    | nil => exact ⟨_, step_of_requests_eq_nil hr hq⟩
    | cons w rest =>
      obtain ⟨r, -, hstep⟩ := exists_step_eq_answering hs hr hq
      exact ⟨_, hstep⟩

end StepEquations

/-- Settles O8: `exec_eq_respond`, in the statement's words. -/
theorem operationsOnlyAddTheirResponse : Obligations.OperationsOnlyAddTheirResponse := exec_eq_answering

/-- Settles O7: three branches of the step, and the first of them again with the word that `withFetchWord` places. -/
theorem stepRunsTheDecodedRequest : Obligations.StepRunsTheDecodedRequest :=
  ⟨fun _ _ _ _ => step_of_decode_eq_ok, fun _ _ _ => step_of_not_fits, fun _ => step_of_requests_eq_nil,
    fun s nbits w _ =>
      step_of_decode_eq_ok (withFetchWord_resetInput s w nbits) (withFetchWord_requests s w nbits)⟩

/-- Settles O11: the response of an operation, the step that accepts a request word, and the branches of a step, of
which the port invariant leaves out the refusal. -/
theorem nothingEverStops : Obligations.NothingEverStops :=
  ⟨fun i s => ⟨_, exec_eq_answering i s⟩, fun _ _ _ => exists_step_eq_answering, fun _ => safe_of_inv⟩

end Machine
end Sys2Proof

/-! PROOFS. Reset (R230 to R232 of spec/70_reset_and_hazards.md): asserted it holds the ports empty, and what it leaves
when released is a new instance. -/

namespace Sys2Proof.Machine

section Reset

theorem present_of_resetInput {s : State} (h : s.resetInput = true) (w : Nat) : s.present w = s := if_pos h

theorem clear_driveReset_true (s : State) : (s.driveReset true).clear = s.driveReset true := rfl

/-- Nothing but `CFG` outlives a reset. -/
theorem driveReset_true_false (s : State) : (s.driveReset true).driveReset false = State.ofCfg s.cfg := rfl

theorem step_driveReset_true (s : State) : step (s.driveReset true) = .next (s.driveReset true) :=
  step_of_resetInput (driveReset_resetInput s true)

/-- The first request of a new instance. -/
theorem step_present_ofCfg {c : Cfg} {w : Nat} {i : Instr} (hd : decode c.W w = .ok i) :
    step ((State.ofCfg c).present w) = .next ((State.ofCfg c).answering (response c i)) :=
  step_eq_answering (present_resetInput _ w) (present_requests _ w) hd

end Reset

/-- Settles O12: the fields as written, and the invariant of every new instance. -/
theorem resetLeavesNothingPending : Obligations.ResetLeavesNothingPending :=
  ⟨ofCfg_requests _, ofCfg_responses _, ofCfg_resetInput _, rfl, rfl, ofCfg_inv _⟩

/-- Settles O13: an asserted reset keeps the ports empty, and a released one leaves a new instance, which answers its
first request. -/
theorem resetDiscardsAndLeavesNoTrace : Obligations.ResetDiscardsAndLeavesNoTrace := by
  intro s w i
  refine ⟨⟨driveReset_cfg s true, driveReset_requests s true, driveReset_responses s true⟩,
    present_of_resetInput (driveReset_resetInput s true) w, step_driveReset_true s, fun hd => ?_⟩
  rw [driveReset_true_false]
  exact step_present_ofCfg hd

end Sys2Proof.Machine

/-! PROOFS. A run (R235, R237 of spec/70_reset_and_hazards.md): as many steps as there are waiting requests, by
induction over the requests. -/

namespace Sys2Proof.Machine

section Run

variable {s : State} {ws : List Nat} {is : List Instr}

theorem run_succ_of_step {M : Host.Core} {s s' : M.State} (h : M.step s = .next s') (k : Nat) :
    M.run (k + 1) s = M.run k s' := by
  rw [Host.Core.run, h]

theorem exists_forall₂_decode {W : Nat} (h : ∀ w ∈ ws, Fits w (2 + 2 * W)) :
    ∃ is, List.Forall₂ (fun w i => decode W w = .ok i) ws is := by
  induction ws with
  | nil => exact ⟨[], .nil⟩
  | cons w ws ih =>
    obtain ⟨hw, hws⟩ := List.forall_mem_cons.mp h
    obtain ⟨is, his⟩ := ih hws
    exact ⟨_, .cons (decode_of_fits hw) his⟩

/-- The first step answers the oldest request; from the state it leaves, of the same `CFG`, the run answers the
others. -/
theorem run_of_forall₂_decode (his : List.Forall₂ (fun w i => decode s.cfg.W w = .ok i) ws is)
    (hr : s.resetInput = false) (hq : s.requests = ws) :
    Host.Core.run core ws.length s =
      .next { s with requests := [], responses := s.responses ++ is.map (response s.cfg) } := by
  induction ws generalizing s is with
  | nil =>
    cases his
    have hs : { s with requests := [], responses := s.responses ++ [] } = s := by rw [List.append_nil, ← hq]
    exact congrArg Host.Outcome.next hs.symm
  | cons w ws ih =>
    cases his with | @cons _ i _ is hd his =>
      have hrest := ih (s := State.answering { s with requests := ws } (response s.cfg i)) his hr rfl
      rw [List.append_assoc, List.singleton_append, ← List.map_cons] at hrest
      exact (run_succ_of_step (M := core) (step_eq_answering hr hq hd) ws.length).trans hrest

end Run

/-- Settles O14: the requests of a well-formed port decode, and a run answers what they decode to, one by one. -/
theorem runAnswersEveryRequestInOrder : Obligations.RunAnswersEveryRequestInOrder := by
  rintro s ⟨hrequests, -⟩ hr
  obtain ⟨is, his⟩ := exists_forall₂_decode hrequests
  exact ⟨is, his, run_of_forall₂_decode his hr rfl⟩

end Sys2Proof.Machine
